-- ==== Sys2Proof/Word.lean ====
section
/-! DEFINITION. The word types of the CORE (spec/00_scope.md R8, R10): plain data, no operation of the machine. -/

namespace Sys2Proof

/-- An 8-bit value: a general register, a timer, a byte of memory (R8: `V_WIDTH`, `TIMER_WIDTH`). -/
abbrev Byte := BitVec 8

/-- A 16-bit value: an instruction word, the pc, the index register, a return address (R8, R24, R25). -/
abbrev Word := BitVec 16

/-- A 12-bit address field `nnn` (R81). -/
abbrev Addr12 := BitVec 12

/-- A 4-bit immediate field `n` (R81). -/
abbrev Nibble := BitVec 4

/-- A general register's index, 0x0 to 0xF (R20). -/
abbrev Reg := Fin 16

/-- The index of `VF`, the flag register (R21). -/
def VF : Reg := 15

/-- A key value, 0x0 to 0xF (R230, D21). -/
abbrev Key := BitVec 4

/-- The register file: sixteen 8-bit registers (R20). -/
abbrev RegFile := Vector Byte 16

/-- The display buffer, `disp[c][r]` for column `c` in 0..63 and row `r` in 0..31, `true` lit (R28). -/
abbrev Display := Vector (Vector Bool 32) 64

/-- A blank display (R38, R211). -/
def Display.blank : Display := Vector.replicate 64 (Vector.replicate 32 false)

/-- A boolean as the flag byte 1 or 0 (R161). -/
def flagByte (b : Bool) : Byte := if b then 1 else 0

end Sys2Proof
end

