-- ==== Sys2Proof/Syntax.lean ====
section
/-! DEFINITION. The syntax: the 33 tagged instructions (spec/30_encoding.md R86 to R92, one constructor per row of
spec/opcode_table.json), and their written form (R95). The operand types hold exactly the values the fields can hold (R81, R84). -/

namespace Sys2Proof

/-- A decoded instruction. `x` and `y` are register indices, `kk` a byte, `nnn` a 12-bit address, `n` a 4-bit immediate.
ShiftRight and ShiftLeft carry no `y`: it is decoded and discarded (R89). -/
inductive Instr where
  | clearScreen
  | ret
  | jump (nnn : Addr12)
  | call (nnn : Addr12)
  | skipEqImm (x : Reg) (kk : Byte)
  | skipNeqImm (x : Reg) (kk : Byte)
  | skipEqReg (x y : Reg)
  | loadImm (x : Reg) (kk : Byte)
  | addImm (x : Reg) (kk : Byte)
  | move (x y : Reg)
  | or (x y : Reg)
  | and (x y : Reg)
  | xor (x y : Reg)
  | add (x y : Reg)
  | subForward (x y : Reg)
  | shiftRight (x : Reg)
  | subBackward (x y : Reg)
  | shiftLeft (x : Reg)
  | skipNeqReg (x y : Reg)
  | loadIndex (nnn : Addr12)
  | random (x : Reg) (kk : Byte)
  | draw (x y : Reg) (n : Nibble)
  | skipKeyPressed (x : Reg)
  | skipKeyNotPressed (x : Reg)
  | loadDelay (x : Reg)
  | waitKey (x : Reg)
  | storeDelay (x : Reg)
  | storeSound (x : Reg)
  | addToIndex (x : Reg)
  | fontChar (x : Reg)
  | storeBCD (x : Reg)
  | storeRange (x : Reg)
  | loadRange (x : Reg)
deriving DecidableEq, Repr

/-- The instruction tags, in the order of the opcode table; they are the mnemonics of the written form (R95, D27). -/
inductive Tag where
  | clearScreen | ret | jump | call | skipEqImm | skipNeqImm | skipEqReg | loadImm | addImm
  | move | or | and | xor | add | subForward | shiftRight | subBackward | shiftLeft | skipNeqReg
  | loadIndex | random | draw | skipKeyPressed | skipKeyNotPressed
  | loadDelay | waitKey | storeDelay | storeSound | addToIndex | fontChar | storeBCD | storeRange | loadRange
deriving DecidableEq, Repr

/-- The tag's name, as the source and the opcode table spell it (R95). -/
def Tag.name : Tag → String
  | .clearScreen => "ClearScreen"
  | .ret => "Return"
  | .jump => "Jump"
  | .call => "Call"
  | .skipEqImm => "SkipEqImm"
  | .skipNeqImm => "SkipNeqImm"
  | .skipEqReg => "SkipEqReg"
  | .loadImm => "LoadImm"
  | .addImm => "AddImm"
  | .move => "Move"
  | .or => "Or"
  | .and => "And"
  | .xor => "Xor"
  | .add => "Add"
  | .subForward => "SubForward"
  | .shiftRight => "ShiftRight"
  | .subBackward => "SubBackward"
  | .shiftLeft => "ShiftLeft"
  | .skipNeqReg => "SkipNeqReg"
  | .loadIndex => "LoadIndex"
  | .random => "Random"
  | .draw => "Draw"
  | .skipKeyPressed => "SkipKeyPressed"
  | .skipKeyNotPressed => "SkipKeyNotPressed"
  | .loadDelay => "LoadDelay"
  | .waitKey => "WaitKey"
  | .storeDelay => "StoreDelay"
  | .storeSound => "StoreSound"
  | .addToIndex => "AddToIndex"
  | .fontChar => "FontChar"
  | .storeBCD => "StoreBCD"
  | .storeRange => "StoreRange"
  | .loadRange => "LoadRange"

/-- An operand as it is written (R95): a register by its number, or an immediate or address by its value. -/
inductive Operand where
  | reg (number : Nat)
  | imm (value : Nat)
deriving DecidableEq, Repr

/-- A written instruction: a tag and its operands in the order of the tag's fields (R95, D27). It may be ill-formed:
`AsmTerm.wellFormed` says which are not. -/
structure AsmTerm where
  tag : Tag
  operands : List Operand
deriving DecidableEq, Repr

/-- The written form of an instruction. The shifts are written in their short form `ShiftRight Vx`, `ShiftLeft Vx` (R95). -/
def Instr.toTerm : Instr → AsmTerm
  | .clearScreen => ⟨.clearScreen, []⟩
  | .ret => ⟨.ret, []⟩
  | .jump nnn => ⟨.jump, [.imm nnn.toNat]⟩
  | .call nnn => ⟨.call, [.imm nnn.toNat]⟩
  | .skipEqImm x kk => ⟨.skipEqImm, [.reg x, .imm kk.toNat]⟩
  | .skipNeqImm x kk => ⟨.skipNeqImm, [.reg x, .imm kk.toNat]⟩
  | .skipEqReg x y => ⟨.skipEqReg, [.reg x, .reg y]⟩
  | .loadImm x kk => ⟨.loadImm, [.reg x, .imm kk.toNat]⟩
  | .addImm x kk => ⟨.addImm, [.reg x, .imm kk.toNat]⟩
  | .move x y => ⟨.move, [.reg x, .reg y]⟩
  | .or x y => ⟨.or, [.reg x, .reg y]⟩
  | .and x y => ⟨.and, [.reg x, .reg y]⟩
  | .xor x y => ⟨.xor, [.reg x, .reg y]⟩
  | .add x y => ⟨.add, [.reg x, .reg y]⟩
  | .subForward x y => ⟨.subForward, [.reg x, .reg y]⟩
  | .shiftRight x => ⟨.shiftRight, [.reg x]⟩
  | .subBackward x y => ⟨.subBackward, [.reg x, .reg y]⟩
  | .shiftLeft x => ⟨.shiftLeft, [.reg x]⟩
  | .skipNeqReg x y => ⟨.skipNeqReg, [.reg x, .reg y]⟩
  | .loadIndex nnn => ⟨.loadIndex, [.imm nnn.toNat]⟩
  | .random x kk => ⟨.random, [.reg x, .imm kk.toNat]⟩
  | .draw x y n => ⟨.draw, [.reg x, .reg y, .imm n.toNat]⟩
  | .skipKeyPressed x => ⟨.skipKeyPressed, [.reg x]⟩
  | .skipKeyNotPressed x => ⟨.skipKeyNotPressed, [.reg x]⟩
  | .loadDelay x => ⟨.loadDelay, [.reg x]⟩
  | .waitKey x => ⟨.waitKey, [.reg x]⟩
  | .storeDelay x => ⟨.storeDelay, [.reg x]⟩
  | .storeSound x => ⟨.storeSound, [.reg x]⟩
  | .addToIndex x => ⟨.addToIndex, [.reg x]⟩
  | .fontChar x => ⟨.fontChar, [.reg x]⟩
  | .storeBCD x => ⟨.storeBCD, [.reg x]⟩
  | .storeRange x => ⟨.storeRange, [.reg x]⟩
  | .loadRange x => ⟨.loadRange, [.reg x]⟩

/-- The tag of an instruction. -/
def Instr.tag (i : Instr) : Tag := i.toTerm.tag

/-- The conventional CHIP-8 mnemonic of a tag, R95's cross-reference column; nothing in the model depends on it. -/
def Tag.conventional : Tag → String
  | .clearScreen => "CLS"
  | .ret => "RET"
  | .jump => "JP"
  | .call => "CALL"
  | .skipEqImm | .skipEqReg => "SE"
  | .skipNeqImm | .skipNeqReg => "SNE"
  | .loadImm | .move | .loadIndex | .loadDelay | .waitKey | .storeDelay | .storeSound
  | .fontChar | .storeBCD | .storeRange | .loadRange => "LD"
  | .addImm | .add | .addToIndex => "ADD"
  | .or => "OR"
  | .and => "AND"
  | .xor => "XOR"
  | .subForward => "SUB"
  | .shiftRight => "SHR"
  | .subBackward => "SUBN"
  | .shiftLeft => "SHL"
  | .random => "RND"
  | .draw => "DRW"
  | .skipKeyPressed => "SKP"
  | .skipKeyNotPressed => "SKNP"

/-- An operand's text: `V0` to `VF` for a register, hexadecimal for an immediate or address (R95). DESIGN CHOICE (log entry 23):
always `0x`, capital digits and no leading zeros; R95 leaves the digit count open. -/
def Operand.text : Operand → String
  | .reg r => "V" ++ String.ofList ((Nat.toDigits 16 r).map Char.toUpper)
  | .imm v => "0x" ++ String.ofList ((Nat.toDigits 16 v).map Char.toUpper)

/-- A written instruction's text: the tag, then the operands separated by commas (R95). -/
def AsmTerm.text (t : AsmTerm) : String :=
  if t.operands.isEmpty then t.tag.name
  else t.tag.name ++ " " ++ ", ".intercalate (t.operands.map Operand.text)

end Sys2Proof
end

