-- ==== Sys2Proof/WellFormed.lean ====
section
/-! DEFINITION. Which written instructions are well formed (spec/30_encoding.md R81, R84, R95). An `Instr` needs no check: the
types of its operands hold exactly the values its fields can hold. -/

namespace Sys2Proof

/-- What may stand in one operand position (R81, R84). -/
inductive Slot where
  | reg
  | byte
  | nibble
  | addr
deriving DecidableEq, Repr

/-- Whether an operand fits a position: a register is numbered 0 to 15, `kk` is at most 0xFF, `n` at most 0xF, `nnn` at most 0xFFF. -/
def Slot.fits : Slot → Operand → Bool
  | .reg, .reg r => decide (r < 16)
  | .byte, .imm v => decide (v < 256)
  | .nibble, .imm v => decide (v < 16)
  | .addr, .imm v => decide (v < 4096)
  | .reg, .imm _ => false
  | .byte, .reg _ => false
  | .nibble, .reg _ => false
  | .addr, .reg _ => false

/-- Whether operands fit the positions one by one, none missing and none left over. -/
def slotsFit : List Slot → List Operand → Bool
  | [], [] => true
  | f :: fs, o :: os => f.fits o && slotsFit fs os
  | [], _ :: _ => false
  | _ :: _, [] => false

/-- The operand forms R95 gives each tag. The shifts have two: with and without the ignored second register. -/
def Tag.forms : Tag → List (List Slot)
  | .clearScreen | .ret => [[]]
  | .jump | .call | .loadIndex => [[.addr]]
  | .skipEqImm | .skipNeqImm | .loadImm | .addImm | .random => [[.reg, .byte]]
  | .skipEqReg | .skipNeqReg | .move | .or | .and | .xor | .add | .subForward | .subBackward => [[.reg, .reg]]
  | .shiftRight | .shiftLeft => [[.reg], [.reg, .reg]]
  | .draw => [[.reg, .reg, .nibble]]
  | .skipKeyPressed | .skipKeyNotPressed | .loadDelay | .waitKey | .storeDelay | .storeSound
  | .addToIndex | .fontChar | .storeBCD | .storeRange | .loadRange => [[.reg]]

/-- A written instruction is well formed when its operands fit one of its tag's forms. -/
def AsmTerm.wellFormed (t : AsmTerm) : Bool := t.tag.forms.any fun f => slotsFit f t.operands

/-- An instruction is well formed when its written form is; `Laws` shows that every `Instr` is. -/
def Instr.wellFormed (i : Instr) : Bool := i.toTerm.wellFormed

end Sys2Proof
end

