-- ==== Sys2Proof/Decode.lean ====
section
/-! DEFINITION. Decoding and encoding (spec/30_encoding.md): the nibble extractor, the fields, the decoder, the encoder, the
opcode table, and the assembling of a written instruction. -/

namespace Sys2Proof

/-! ### The extractor and the fields -/

/-- R82: the bit-field extractor; position 0 is `w[15:12]` (D2). The last argument rules out the calls on which R83's
extractor fails fast. -/
def nib (w : Word) (index width : Nat) (_valid : 0 < width ∧ index + width ≤ 4 := by decide) : BitVec (4 * width) :=
  w.extractLsb' (16 - 4 * (index + width)) (4 * width)

/-- R81: `op = w[15:12]`. -/
def opField (w : Word) : BitVec 4 := nib w 0 1

/-- R81: `x = w[11:8]`. -/
def xField (w : Word) : Reg := (nib w 1 1).toFin

/-- R81: `y = w[7:4]`. -/
def yField (w : Word) : Reg := (nib w 2 1).toFin

/-- R81: `n = w[3:0]`. -/
def nField (w : Word) : Nibble := nib w 3 1

/-- R81: `kk = w[7:0]`. -/
def kkField (w : Word) : Byte := nib w 2 2

/-- R81: `nnn = w[11:0]`. -/
def nnnField (w : Word) : Addr12 := nib w 1 3

/-! ### The decoder -/

/-- Why bytes decode to no instruction. -/
inductive Reject where
  /-- The word is `Unrecognized` (R85, R93). -/
  | unrecognized (w : Word)
  /-- There are fewer than the two bytes of a word (R80); the machine always gives two. -/
  | truncated
deriving DecidableEq, Repr

/-- R88: group 0x0 matches the whole word. -/
def decodeGroup0 (w : Word) : Except Reject Instr :=
  if w = 0x00E0#16 then .ok .clearScreen
  else if w = 0x00EE#16 then .ok .ret
  else .error (.unrecognized w)

/-- R89: group 0x8 dispatches on `n`; the shifts discard `y`. -/
def decodeGroup8 (w : Word) : Except Reject Instr :=
  match nField w with
  | 0x0#4 => .ok (.move (xField w) (yField w))
  | 0x1#4 => .ok (.or (xField w) (yField w))
  | 0x2#4 => .ok (.and (xField w) (yField w))
  | 0x3#4 => .ok (.xor (xField w) (yField w))
  | 0x4#4 => .ok (.add (xField w) (yField w))
  | 0x5#4 => .ok (.subForward (xField w) (yField w))
  | 0x6#4 => .ok (.shiftRight (xField w))
  | 0x7#4 => .ok (.subBackward (xField w) (yField w))
  | 0xE#4 => .ok (.shiftLeft (xField w))
  | _ => .error (.unrecognized w)

/-- R90: group 0xE dispatches on `kk`. -/
def decodeGroupE (w : Word) : Except Reject Instr :=
  match kkField w with
  | 0x9E#8 => .ok (.skipKeyPressed (xField w))
  | 0xA1#8 => .ok (.skipKeyNotPressed (xField w))
  | _ => .error (.unrecognized w)

/-- R91: group 0xF dispatches on `kk`. -/
def decodeGroupF (w : Word) : Except Reject Instr :=
  match kkField w with
  | 0x07#8 => .ok (.loadDelay (xField w))
  | 0x0A#8 => .ok (.waitKey (xField w))
  | 0x15#8 => .ok (.storeDelay (xField w))
  | 0x18#8 => .ok (.storeSound (xField w))
  | 0x1E#8 => .ok (.addToIndex (xField w))
  | 0x29#8 => .ok (.fontChar (xField w))
  | 0x33#8 => .ok (.storeBCD (xField w))
  | 0x55#8 => .ok (.storeRange (xField w))
  | 0x65#8 => .ok (.loadRange (xField w))
  | _ => .error (.unrecognized w)

/-- R92: the decoder, total over all words; a word of no row is rejected as `unrecognized`. -/
def decodeWord (w : Word) : Except Reject Instr :=
  match opField w with
  | 0x0#4 => decodeGroup0 w
  | 0x1#4 => .ok (.jump (nnnField w))
  | 0x2#4 => .ok (.call (nnnField w))
  | 0x3#4 => .ok (.skipEqImm (xField w) (kkField w))
  | 0x4#4 => .ok (.skipNeqImm (xField w) (kkField w))
  | 0x5#4 => if nField w = 0x0#4 then .ok (.skipEqReg (xField w) (yField w)) else .error (.unrecognized w)
  | 0x6#4 => .ok (.loadImm (xField w) (kkField w))
  | 0x7#4 => .ok (.addImm (xField w) (kkField w))
  | 0x8#4 => decodeGroup8 w
  | 0x9#4 => if nField w = 0x0#4 then .ok (.skipNeqReg (xField w) (yField w)) else .error (.unrecognized w)
  | 0xA#4 => .ok (.loadIndex (nnnField w))
  | 0xC#4 => .ok (.random (xField w) (kkField w))
  | 0xD#4 => .ok (.draw (xField w) (yField w) (nField w))
  | 0xE#4 => decodeGroupE w
  | 0xF#4 => decodeGroupF w
  | _ => .error (.unrecognized w)

/-- R60: the word of two bytes, the byte at the lower address most significant. -/
def wordOfBytes (hi lo : Byte) : Word := hi ++ lo

/-- R60: the two bytes of a word as memory holds them, lower address first. -/
def bytesOfWord (w : Word) : List Byte := [w.extractLsb' 8 8, w.extractLsb' 0 8]

/-- The decoder on bytes: the instruction at the front and the bytes after it. -/
def decodeBytes : List Byte → Except Reject (Instr × List Byte)
  | hi :: lo :: rest => (decodeWord (wordOfBytes hi lo)).map fun i => (i, rest)
  | [_] => .error .truncated
  | [] => .error .truncated

/-- The first (and only) word of an instruction whose bits are `w`, numbered as spec/opcode_table.json numbers them: every
instruction is one 16-bit word (R80, R94), and bits above `nbits` are zero. -/
def tableWord (nbits w : Nat) : Word := BitVec.ofNat 16 (w % 2 ^ nbits)

/-- The instruction the decoder reads from a row's word, laid out in memory's byte order. -/
def decodeTableWord (nbits w : Nat) : Option Instr :=
  match decodeBytes (bytesOfWord (tableWord nbits w)) with
  | .ok (i, _) => some i
  | .error _ => none

/-! ### The encoder -/

/-- A register index as the four bits of its field (R81, R84). -/
def regBits (x : Reg) : BitVec 4 := BitVec.ofFin x

/-- R81, format `NNN`. -/
def wordNNN (op : BitVec 4) (nnn : Addr12) : Word := op ++ nnn

/-- R81, formats `XKK` and `XFN`. -/
def wordXKK (op : BitVec 4) (x : Reg) (kk : Byte) : Word := op ++ regBits x ++ kk

/-- R81, format `XYN`. -/
def wordXYN (op : BitVec 4) (x y : Reg) (n : Nibble) : Word := op ++ regBits x ++ regBits y ++ n

/-- The word of an instruction (R81, R86 to R91). The shifts are encoded with `y = 0` (R95). -/
def encode : Instr → Word
  | .clearScreen => 0x00E0#16
  | .ret => 0x00EE#16
  | .jump nnn => wordNNN 0x1 nnn
  | .call nnn => wordNNN 0x2 nnn
  | .skipEqImm x kk => wordXKK 0x3 x kk
  | .skipNeqImm x kk => wordXKK 0x4 x kk
  | .skipEqReg x y => wordXYN 0x5 x y 0x0
  | .loadImm x kk => wordXKK 0x6 x kk
  | .addImm x kk => wordXKK 0x7 x kk
  | .move x y => wordXYN 0x8 x y 0x0
  | .or x y => wordXYN 0x8 x y 0x1
  | .and x y => wordXYN 0x8 x y 0x2
  | .xor x y => wordXYN 0x8 x y 0x3
  | .add x y => wordXYN 0x8 x y 0x4
  | .subForward x y => wordXYN 0x8 x y 0x5
  | .shiftRight x => wordXYN 0x8 x 0 0x6
  | .subBackward x y => wordXYN 0x8 x y 0x7
  | .shiftLeft x => wordXYN 0x8 x 0 0xE
  | .skipNeqReg x y => wordXYN 0x9 x y 0x0
  | .loadIndex nnn => wordNNN 0xA nnn
  | .random x kk => wordXKK 0xC x kk
  | .draw x y n => wordXYN 0xD x y n
  | .skipKeyPressed x => wordXKK 0xE x 0x9E
  | .skipKeyNotPressed x => wordXKK 0xE x 0xA1
  | .loadDelay x => wordXKK 0xF x 0x07
  | .waitKey x => wordXKK 0xF x 0x0A
  | .storeDelay x => wordXKK 0xF x 0x15
  | .storeSound x => wordXKK 0xF x 0x18
  | .addToIndex x => wordXKK 0xF x 0x1E
  | .fontChar x => wordXKK 0xF x 0x29
  | .storeBCD x => wordXKK 0xF x 0x33
  | .storeRange x => wordXKK 0xF x 0x55
  | .loadRange x => wordXKK 0xF x 0x65

/-! ### The opcode table -/

/-- A row of spec/opcode_table.json (R96): a word is the row's instruction iff `(w & mask) = pattern`. -/
structure OpcodeRow where
  tag : Tag
  pattern : Word
  mask : Word
deriving DecidableEq, Repr

/-- Whether a word is a row's instruction (R96). -/
def OpcodeRow.covers (r : OpcodeRow) (w : Word) : Bool := decide (w &&& r.mask = r.pattern)

/-- The rows of groups 0x0 to 0x7 (R96). -/
def opcodeRowsLow : List OpcodeRow :=
  [⟨.clearScreen, 0x00E0, 0xFFFF⟩, ⟨.ret, 0x00EE, 0xFFFF⟩, ⟨.jump, 0x1000, 0xF000⟩, ⟨.call, 0x2000, 0xF000⟩,
   ⟨.skipEqImm, 0x3000, 0xF000⟩, ⟨.skipNeqImm, 0x4000, 0xF000⟩, ⟨.skipEqReg, 0x5000, 0xF00F⟩,
   ⟨.loadImm, 0x6000, 0xF000⟩, ⟨.addImm, 0x7000, 0xF000⟩]

/-- The rows of group 0x8 (R96). -/
def opcodeRowsAlu : List OpcodeRow :=
  [⟨.move, 0x8000, 0xF00F⟩, ⟨.or, 0x8001, 0xF00F⟩, ⟨.and, 0x8002, 0xF00F⟩, ⟨.xor, 0x8003, 0xF00F⟩,
   ⟨.add, 0x8004, 0xF00F⟩, ⟨.subForward, 0x8005, 0xF00F⟩, ⟨.shiftRight, 0x8006, 0xF00F⟩,
   ⟨.subBackward, 0x8007, 0xF00F⟩, ⟨.shiftLeft, 0x800E, 0xF00F⟩]

/-- The rows of groups 0x9 to 0xF (R96); group 0xB has none. -/
def opcodeRowsHigh : List OpcodeRow :=
  [⟨.skipNeqReg, 0x9000, 0xF00F⟩, ⟨.loadIndex, 0xA000, 0xF000⟩, ⟨.random, 0xC000, 0xF000⟩, ⟨.draw, 0xD000, 0xF000⟩,
   ⟨.skipKeyPressed, 0xE09E, 0xF0FF⟩, ⟨.skipKeyNotPressed, 0xE0A1, 0xF0FF⟩,
   ⟨.loadDelay, 0xF007, 0xF0FF⟩, ⟨.waitKey, 0xF00A, 0xF0FF⟩, ⟨.storeDelay, 0xF015, 0xF0FF⟩,
   ⟨.storeSound, 0xF018, 0xF0FF⟩, ⟨.addToIndex, 0xF01E, 0xF0FF⟩, ⟨.fontChar, 0xF029, 0xF0FF⟩,
   ⟨.storeBCD, 0xF033, 0xF0FF⟩, ⟨.storeRange, 0xF055, 0xF0FF⟩, ⟨.loadRange, 0xF065, 0xF0FF⟩]

/-- The opcode table (R96), one row per instruction. -/
def opcodeTable : List OpcodeRow := opcodeRowsLow ++ opcodeRowsAlu ++ opcodeRowsHigh

/-- The opcode map by `op` (R96): the tags of a group. -/
def opcodeMap (op : BitVec 4) : List Tag :=
  match op with
  | 0x0#4 => [.clearScreen, .ret]
  | 0x1#4 => [.jump]
  | 0x2#4 => [.call]
  | 0x3#4 => [.skipEqImm]
  | 0x4#4 => [.skipNeqImm]
  | 0x5#4 => [.skipEqReg]
  | 0x6#4 => [.loadImm]
  | 0x7#4 => [.addImm]
  | 0x8#4 => [.move, .or, .and, .xor, .add, .subForward, .shiftRight, .subBackward, .shiftLeft]
  | 0x9#4 => [.skipNeqReg]
  | 0xA#4 => [.loadIndex]
  | 0xC#4 => [.random]
  | 0xD#4 => [.draw]
  | 0xE#4 => [.skipKeyPressed, .skipKeyNotPressed]
  | 0xF#4 => [.loadDelay, .waitKey, .storeDelay, .storeSound, .addToIndex, .fontChar, .storeBCD, .storeRange, .loadRange]
  | _ => []

/-! ### Assembling a written instruction -/

/-- The instruction of a register form with two register operands (R95). -/
def Tag.ofTwoRegs : Tag → Reg → Reg → Option Instr
  | .skipEqReg, x, y => some (.skipEqReg x y)
  | .skipNeqReg, x, y => some (.skipNeqReg x y)
  | .move, x, y => some (.move x y)
  | .or, x, y => some (.or x y)
  | .and, x, y => some (.and x y)
  | .xor, x, y => some (.xor x y)
  | .add, x, y => some (.add x y)
  | .subForward, x, y => some (.subForward x y)
  | .subBackward, x, y => some (.subBackward x y)
  | .shiftRight, x, _ => some (.shiftRight x)
  | .shiftLeft, x, _ => some (.shiftLeft x)
  | _, _, _ => none

/-- The instruction of a form with one register operand (R95). -/
def Tag.ofOneReg : Tag → Reg → Option Instr
  | .shiftRight, x => some (.shiftRight x)
  | .shiftLeft, x => some (.shiftLeft x)
  | .skipKeyPressed, x => some (.skipKeyPressed x)
  | .skipKeyNotPressed, x => some (.skipKeyNotPressed x)
  | .loadDelay, x => some (.loadDelay x)
  | .waitKey, x => some (.waitKey x)
  | .storeDelay, x => some (.storeDelay x)
  | .storeSound, x => some (.storeSound x)
  | .addToIndex, x => some (.addToIndex x)
  | .fontChar, x => some (.fontChar x)
  | .storeBCD, x => some (.storeBCD x)
  | .storeRange, x => some (.storeRange x)
  | .loadRange, x => some (.loadRange x)
  | _, _ => none

/-- The instruction of a form with a register and a byte (R95). -/
def Tag.ofRegByte : Tag → Reg → Byte → Option Instr
  | .skipEqImm, x, kk => some (.skipEqImm x kk)
  | .skipNeqImm, x, kk => some (.skipNeqImm x kk)
  | .loadImm, x, kk => some (.loadImm x kk)
  | .addImm, x, kk => some (.addImm x kk)
  | .random, x, kk => some (.random x kk)
  | _, _, _ => none

/-- The instruction of a form with an address (R95). -/
def Tag.ofAddr : Tag → Addr12 → Option Instr
  | .jump, nnn => some (.jump nnn)
  | .call, nnn => some (.call nnn)
  | .loadIndex, nnn => some (.loadIndex nnn)
  | _, _ => none

/-- The instruction a written form stands for (R95); `none` where it is ill formed. -/
def AsmTerm.assemble (t : AsmTerm) : Option Instr :=
  if t.wellFormed then
    match t.tag, t.operands with
    | .clearScreen, _ => some .clearScreen
    | .ret, _ => some .ret
    | .draw, [.reg x, .reg y, .imm n] => some (.draw (Fin.ofNat 16 x) (Fin.ofNat 16 y) (BitVec.ofNat 4 n))
    | tag, [.imm nnn] => tag.ofAddr (BitVec.ofNat 12 nnn)
    | tag, [.reg x] => tag.ofOneReg (Fin.ofNat 16 x)
    | tag, [.reg x, .imm kk] => tag.ofRegByte (Fin.ofNat 16 x) (BitVec.ofNat 8 kk)
    | tag, [.reg x, .reg y] => tag.ofTwoRegs (Fin.ofNat 16 x) (Fin.ofNat 16 y)
    | _, _ => none
  else none

end Sys2Proof
end

