-- ==== Sys2Proof/Config.lean ====
section
/-! DEFINITION. The implementation parameters (spec/00_scope.md R8, R9) and the free values.
A parameter the spec leaves OPEN is a constant with no body: no proof can see its value, so what is proved holds for
every value of it. The operations of the machine take each OPEN parameter as an argument; `exec` and `step` pass the constants of this file. -/

namespace Sys2Proof

/-- `VF_WRITE_ORDER` (R161, D15): which write wins when a flagged instruction has `x = 0xF`. -/
inductive VfWriteOrder where
  | flagLast
  | resultLast
deriving DecidableEq, Repr, Inhabited

/-- `FONTCHAR_DIGIT` (R192, D10): what FontChar takes of a register above 0xF. -/
inductive FontDigit where
  | lowNibble
  | full
deriving DecidableEq, Repr, Inhabited

/-- What the state elements other than `halted` may hold after a fatal halt (R253): any value of each.
`cells` is any finite list of address and byte pairs; the machine brings it into memory's canonical form. -/
structure AfterHalt where
  v : RegFile
  pc : Word
  index : Word
  stack : List Word
  dt : Byte
  st : Byte
  disp : Display
  cells : List (Nat × BitVec 8)
  prng : Nat
  lastTick : Nat
deriving DecidableEq, Repr, Inhabited

namespace Config

/-! ### Fixed by the spec -/

/-- `MEM_SIZE` (R8). -/
def memSize : Nat := 4096

/-- `PROGRAM_BASE` (R8): where the image is loaded, and the entry point (R68). -/
def programBase : Nat := 0x200

/-- `PROGRAM_REGION`'s size, 0x200 to 0xFFF (R8). -/
def programSize : Nat := 3584

/-- `FONT_BASE` (R9, D9: the spec's choice 0x000). -/
def fontBase : Nat := 0

/-- The size of the font table, 16 glyphs of 5 bytes (R8). -/
def fontSize : Nat := 80

/-- `STACK_CAPACITY`, normatively `none`, unbounded (R9, R26, D23, C5). The operations take a finite value too. -/
def stackCapacity : Option Nat := none

/-! ### OPEN parameters (R9) -/

/-- `PC_ALIGN_STRICT` (R63, R123, D5). -/
opaque pcAlignStrict : Bool

/-- `FONT_GLYPHS` (R9, D9): byte `k` of the font table, used for `k < 80`. -/
opaque fontGlyphs : Nat → Byte

/-- `FONTCHAR_DIGIT` (R192, D10). -/
opaque fontDigit : FontDigit

/-- `VF_WRITE_ORDER` (R161, D15). -/
opaque vfWriteOrder : VfWriteOrder

/-- `DRAW_COLLISION_VF` (R212, D19). -/
opaque drawCollisionVf : Bool

/-- `prng_init` (R31, D17): seeds and PRNG states are held as natural numbers (log entry 3). -/
opaque prngInit : Nat → Nat

/-- `prng_next` (R173, D17): the next 8-bit value of the stream, and the next PRNG state. -/
opaque prngNext : Nat → Byte × Nat

/-- `TIME_UNITS_PER_SECOND` less one; the parameter is a positive natural number (R9, D22). -/
opaque timeUnitsLessOne : Nat

/-- `TIME_UNITS_PER_SECOND` (R9, R259, D22). -/
def timeUnitsPerSecond : Nat := timeUnitsLessOne + 1

/-! ### The reset inputs of `State.reset` (R36): any values -/

/-- `SEED` (R9, R36). -/
opaque seed : Nat

/-- `T0`, the reference time (R9, R32). -/
opaque t0 : Nat

/-! ### Free values -/

/-- The `now` sample of a cycle the model's state lists no sample for (R35): any time. The argument counts host events. -/
opaque hostNow : Nat → Nat

/-- The `key` sample of a cycle the model's state lists no sample for (R35): any key, or none. -/
opaque hostKey : Nat → Option Key

/-- The unspecified state elements after a fatal halt (R253). -/
opaque afterHalt : Nat → AfterHalt

/-! ### The default of an OPEN parameter -/

/-- The conventional glyph bytes that 92_eei_decisions.md gives as the DEFAULT of `FONT_GLYPHS`; the CORE does not fix them.
A claim that needs them says so: `∀ k < 80, Config.fontGlyphs k = Config.defaultFontGlyphs.getD k 0`. -/
def defaultFontGlyphs : List Byte :=
  [0xF0, 0x90, 0x90, 0x90, 0xF0] ++ [0x20, 0x60, 0x20, 0x20, 0x70] ++
  [0xF0, 0x10, 0xF0, 0x80, 0xF0] ++ [0xF0, 0x10, 0xF0, 0x10, 0xF0] ++
  [0x90, 0x90, 0xF0, 0x10, 0x10] ++ [0xF0, 0x80, 0xF0, 0x10, 0xF0] ++
  [0xF0, 0x80, 0xF0, 0x90, 0xF0] ++ [0xF0, 0x10, 0x20, 0x40, 0x40] ++
  [0xF0, 0x90, 0xF0, 0x90, 0xF0] ++ [0xF0, 0x90, 0xF0, 0x10, 0xF0] ++
  [0xF0, 0x90, 0xF0, 0x90, 0x90] ++ [0xE0, 0x90, 0xE0, 0x90, 0xE0] ++
  [0xF0, 0x80, 0x80, 0x80, 0xF0] ++ [0xE0, 0x90, 0x90, 0x90, 0xE0] ++
  [0xF0, 0x80, 0xF0, 0x80, 0xF0] ++ [0xF0, 0x80, 0xF0, 0x80, 0x80]

end Config
end Sys2Proof
end

