-- ==== Sys2Proof/Machine/State.lean ====
section
/-! DEFINITION. The state (spec/10_state.md), as plain data, and its reset value (R38). -/

namespace Sys2Proof.Machine

/-- The fatal conditions (R251), the machine's only exceptions. Each is RAISED as a fatal halt: the next state has `halted`
set to a record that names it (R250, log entry 1), so the machine's step answers `next`; no step answers the outcome `fault`. -/
inductive Fault where
  /-- Code 1, raised by the fetch of a pc below 0x200 or above 0xFFE (R122). Safe: the spec gives it. -/
  | pcOutOfBounds
  /-- Code 2, raised by the fetch of an odd pc when `PC_ALIGN_STRICT` is true (R123). Safe: the spec gives it. -/
  | pcMisaligned
  /-- Code 3, raised by the decoding of an unrecognized word (R127). Safe: the spec gives it. -/
  | decodeFailure
  /-- Code 4, raised by Return on an empty stack (R140). Safe: the spec gives it. -/
  | stackUnderflow
  /-- Code 5, raised by Call on a full stack, only where `STACK_CAPACITY` is finite (R142, D23). Safe: the spec gives it. -/
  | stackOverflow
  /-- Code 6, raised by StoreBCD, StoreRange, LoadRange and Draw for a data address of 4096 or more (R69). Safe: the spec gives it. -/
  | memoryOutOfBounds
deriving DecidableEq, Repr

/-- Why a step has no meaning. -/
inductive Refusal where
  /-- Raised by `exec`'s arm of an instruction that has no meaning yet. Safe. No arm is left so. -/
  | notModelled (mnemonic : String)
deriving DecidableEq, Repr

/-- R252: the fault record, the diagnostic the host reads at the `halted` output. -/
structure FaultRecord where
  /-- Which fatal condition (R251); its number is `Fault.code`. -/
  code : Fault
  /-- The fetch address of the cycle that faulted. -/
  addr : Word
  /-- The fetched word; `none` for the two fetch faults. -/
  word : Option Word
  /-- The lowest data address out of bounds, for `memoryOutOfBounds`; `none` otherwise. -/
  dataAddr : Option Nat
deriving DecidableEq, Repr

/-- What the host does between two cycles (R35, R36, R265). -/
inductive HostEvent where
  /-- A `cycle` strobe with its two samples (R35, R120). -/
  | cycle (now : Nat) (key : Option Key)
  /-- A reset with its three inputs (R36, R280). -/
  | reset (seed t0 : Nat) (image : List Byte)
deriving DecidableEq, Repr

/-- Memory: the bytes that differ from what an unlisted address reads as, by strictly rising address (R29, log entry 14).
`Memory.wf` is that form, `Memory.initial` what an unlisted address reads as. -/
abbrev Memory := List Host.Cell

/-- The state of the CORE (10_state.md), then the model's own fields. -/
structure State where
  /-- V0 to VF (R20). -/
  v : RegFile
  /-- The program counter (R24). -/
  pc : Word
  /-- The index register `I` (R25). -/
  index : Word
  /-- The call stack, head = top (R26). -/
  stack : List Word
  /-- The delay timer `DT` (R27). -/
  dt : Byte
  /-- The sound timer `ST` (R27), also an output (R37). -/
  st : Byte
  /-- The display buffer (R28), also an output (R37). -/
  disp : Display
  /-- Memory (R29). -/
  mem : Memory
  /-- The PRNG state (R31, log entry 3). -/
  prng : Nat
  /-- The timer baseline (R32). -/
  lastTick : Nat
  /-- The halt state (R33), also an output (R37). -/
  halted : Option FaultRecord
  /-- The redraw output of the last cycle (R37, R129). -/
  redraw : Bool
  /-- Model's own: the key input of the cycle in progress (R35, R230), set when the cycle begins. -/
  key : Option Key
  /-- Model's own: the fetch address `a` of the cycle in progress (R122). -/
  fetchAddr : Word
  /-- Model's own: the fetched word `w` of the cycle in progress (R124). -/
  fetchWord : Word
  /-- Model's own: what the host does next, oldest first (log entry 2). -/
  events : List HostEvent
  /-- Model's own: how many host events have been taken, the argument of the free values (log entry 2). -/
  strobes : Nat
deriving DecidableEq, Repr

/-- The state right after reset with an empty image (R38, R280): every element at the value R38 gives, `SEED` and `T0` the
constants of Config, the font preload in what unlisted memory reads as. DESIGN CHOICE (log entries 2 and 13): the model's own fields. -/
def State.reset : State where
  v := Vector.replicate 16 0
  pc := 0x200
  index := 0
  stack := []
  dt := 0
  st := 0
  disp := Display.blank
  mem := []
  prng := Config.prngInit Config.seed
  lastTick := Config.t0
  halted := none
  redraw := false
  key := none
  fetchAddr := 0
  fetchWord := 0
  events := []
  strobes := 0

end Sys2Proof.Machine
end

