-- ==== Sys2Proof/Machine/Ops.lean ====
section
/-! DEFINITION. The named operations on the state: memory (spec/20_memory.md), registers, the pc and the stack
(spec/10_state.md), the timer update and the fatal halt (spec/60_exceptions.md), reset and program load
(spec/70_reset_and_hazards.md), the host's events and ports, and the parts of a cycle before execution (spec/40_cycle.md). -/

namespace Sys2Proof.Machine

/-- R251: the number of a fault code. -/
def Fault.code : Fault → Nat
  | .pcOutOfBounds => 1
  | .pcMisaligned => 2
  | .decodeFailure => 3
  | .stackUnderflow => 4
  | .stackOverflow => 5
  | .memoryOutOfBounds => 6

/-! ### Memory -/

/-- What an unlisted address reads as: the reset contents of an imageless CORE (R38, R66, D8, D9), the font table from
`FONT_BASE` and 0x00 elsewhere. -/
def Memory.initial (a : Nat) : Byte :=
  if Config.fontBase ≤ a ∧ a < Config.fontBase + Config.fontSize then Config.fontGlyphs (a - Config.fontBase) else 0

/-- The listed byte at an address, if there is one. -/
def Memory.find (m : Memory) (a : Nat) : Option Byte :=
  match m with
  | [] => none
  | (a', b) :: rest => if a' = a then some b else Memory.find rest a

/-- R71: the byte at an in-bounds address. -/
def Memory.read (m : Memory) (a : Nat) : Byte := (m.find a).getD (Memory.initial a)

/-- A cell put in front of the later ones, unless it holds what its address reads as unlisted. -/
def Memory.consCell (a : Nat) (b : Byte) (rest : Memory) : Memory :=
  if b = Memory.initial a then rest else (a, b) :: rest

/-- R71: memory with one byte written at an in-bounds address; the canonical form is kept. -/
def Memory.write (m : Memory) (a : Nat) (b : Byte) : Memory :=
  match m with
  | [] => Memory.consCell a b []
  | (a', b') :: rest =>
    if a < a' then Memory.consCell a b ((a', b') :: rest)
    else if a = a' then Memory.consCell a b rest
    else (a', b') :: Memory.write rest a b

/-- Bytes written one by one at rising addresses. -/
def Memory.writeBytes (m : Memory) (a : Nat) : List Byte → Memory
  | [] => m
  | b :: bs => Memory.writeBytes (m.write a b) (a + 1) bs

/-- The bytes at `n` addresses from `a` on, lowest first. -/
def Memory.readBytes (m : Memory) (a : Nat) : Nat → List Byte
  | 0 => []
  | n + 1 => m.read a :: Memory.readBytes m (a + 1) n

/-- Any list of cells brought into the canonical form: later cells win, addresses of 4096 and more are dropped. -/
def Memory.ofCells (cells : List Host.Cell) : Memory :=
  cells.foldl (fun m c => if c.1 < Config.memSize then m.write c.1 c.2 else m) []

/-- The canonical form from address `low` on: addresses strictly rising and in bounds, no entry equal to what its address
reads as unlisted. -/
def Memory.wfFrom (low : Nat) : Memory → Bool
  | [] => true
  | (a, b) :: rest =>
    decide (low ≤ a) && decide (a < Config.memSize) && decide (b ≠ Memory.initial a) && Memory.wfFrom (a + 1) rest

/-- The canonical form of memory. -/
def Memory.wf (m : Memory) : Bool := Memory.wfFrom 0 m

/-- R69: the bounds check of a transfer of `n` bytes from `a` on, made before its first access: the lowest address out of
bounds, or `none`. Addresses are exact naturals. -/
def firstOutOfBounds (a n : Nat) : Option Nat :=
  if n = 0 then none
  else if Config.memSize < a + n then some (max a Config.memSize)
  else none

/-! ### Setters -/

/-- Writes the register file. -/
def State.setRegs (s : State) (v : RegFile) : State := { s with v := v }

/-- R11: `V[x]`. -/
def State.getV (s : State) (x : Reg) : Byte := s.v[x]

/-- R11: `V[x] <- b`. -/
def State.setV (s : State) (x : Reg) (b : Byte) : State := { s with v := s.v.set x b }

/-- R11: `pc <- target`. -/
def State.setPc (s : State) (target : Word) : State := { s with pc := target }

/-- R11: `I <- a`. -/
def State.setIndex (s : State) (a : Word) : State := { s with index := a }

/-- R11: `DT <- b`. -/
def State.setDt (s : State) (b : Byte) : State := { s with dt := b }

/-- R11: `ST <- b`. -/
def State.setSt (s : State) (b : Byte) : State := { s with st := b }

/-- Writes the display buffer and asserts the redraw output (R11, R129). -/
def State.present (s : State) (d : Display) : State := { s with disp := d, redraw := true }

/-- Writes memory. -/
def State.setMem (s : State) (m : Memory) : State := { s with mem := m }

/-- Writes the PRNG state (R31). -/
def State.setPrng (s : State) (p : Nat) : State := { s with prng := p }

/-- Writes the call stack. -/
def State.setStack (s : State) (stack : List Word) : State := { s with stack := stack }

/-! ### The fatal halt: the CORE's one exception entry -/

/-- R250 to R253: `raise Fatal(code, …)`. `halted` takes the record of R252; the redraw output is false (R129); every
other element of the CORE's state is unspecified, so a free value (log entry 1). There is no return from it but reset (R254, R257). -/
def raiseFatal (code : Fault) (word : Option Word) (dataAddr : Option Nat) (s : State) : State :=
  { s with
    v := (Config.afterHalt s.strobes).v
    pc := (Config.afterHalt s.strobes).pc
    index := (Config.afterHalt s.strobes).index
    stack := (Config.afterHalt s.strobes).stack
    dt := (Config.afterHalt s.strobes).dt
    st := (Config.afterHalt s.strobes).st
    disp := (Config.afterHalt s.strobes).disp
    mem := Memory.ofCells (Config.afterHalt s.strobes).cells
    prng := (Config.afterHalt s.strobes).prng
    lastTick := (Config.afterHalt s.strobes).lastTick
    halted := some ⟨code, s.fetchAddr, word, dataAddr⟩
    redraw := false }

/-- A fault of the executing instruction: the record holds the fetched word (R252). -/
def raiseAtExecute (code : Fault) (dataAddr : Option Nat) (s : State) : State :=
  raiseFatal code (some s.fetchWord) dataAddr s

/-- A transfer of `n` bytes from address `a` on: the state `done` where all are in bounds, the fatal halt with the lowest address
out of bounds where not (R69). -/
def withSpan (a n : Nat) (s done : State) : State :=
  match firstOutOfBounds a n with
  | some bad => raiseAtExecute .memoryOutOfBounds (some bad) s
  | none => done

/-! ### The call stack -/

/-- R26, R140: Return's pop into the pc; the fatal halt on an empty stack. -/
def popPc (s : State) : State :=
  match s.stack with
  | [] => raiseAtExecute .stackUnderflow none s
  | top :: rest => (s.setStack rest).setPc top

/-- R26, R142: whether a stack holds the capacity's number of entries. -/
def stackFull (capacity : Option Nat) (stack : List Word) : Bool :=
  match capacity with
  | none => false
  | some c => decide (stack.length = c)

/-- R26, R142: Call's push of the advanced pc and its jump, for a stack capacity; the fatal halt on a full stack. -/
def pushPcAndJump (capacity : Option Nat) (target : Word) (s : State) : State :=
  match stackFull capacity s.stack with
  | true => raiseAtExecute .stackOverflow none s
  | false => (s.setStack (s.pc :: s.stack)).setPc target

/-! ### The skip primitive and WaitKey's rewind -/

/-- R130: `Skip()` where the condition holds. -/
def skipIf (c : Bool) (s : State) : State := { s with pc := if c then s.pc + 2 else s.pc }

/-- R233: `pc <- pc - 2`. -/
def rewindPc (s : State) : State := { s with pc := s.pc - 2 }

/-! ### The timers -/

/-- R259, R261: whether the timer update fires; exact arithmetic, and time that goes backwards never fires. -/
def tickDue (unitsPerSecond now lastTick : Nat) : Bool :=
  decide (lastTick ≤ now) && decide (unitsPerSecond ≤ 60 * (now - lastTick))

/-- R259: one decrement, saturating at zero. -/
def countDown (b : Byte) : Byte := if b = 0 then 0 else b - 1

/-- R259: `TimerTick(now)`. -/
def timerTick (unitsPerSecond now : Nat) (s : State) : State :=
  { s with
    dt := if tickDue unitsPerSecond now s.lastTick then countDown s.dt else s.dt
    st := if tickDue unitsPerSecond now s.lastTick then countDown s.st else s.st
    lastTick := if tickDue unitsPerSecond now s.lastTick then now else s.lastTick }

/-! ### Reset and program load -/

/-- R281: memory with the image loaded at 0x200; bytes past the program region's 3584 are dropped. -/
def loadImage (m : Memory) (image : List Byte) : Memory :=
  m.writeBytes Config.programBase (image.take Config.programSize)

/-- R280: reset with its inputs (R36), the values of R38 and then the image (R281). The model's own record of the host's acts,
`events` and `strobes`, goes on; DESIGN CHOICE (log entry 2). -/
def applyReset (seed t0 : Nat) (image : List Byte) (s : State) : State :=
  { State.reset with
    mem := loadImage [] image
    prng := Config.prngInit seed
    lastTick := t0
    events := s.events
    strobes := s.strobes }

/-! ### The host's events -/

/-- What the host does next: the oldest listed event, or a cycle whose two samples are free values (R35, log entry 2). -/
def nextEvent (s : State) : HostEvent :=
  match s.events with
  | e :: _ => e
  | [] => .cycle (Config.hostNow s.strobes) (Config.hostKey s.strobes)

/-- Whether an event is a reset. -/
def HostEvent.isReset : HostEvent → Bool
  | .reset _ _ _ => true
  | .cycle _ _ => false

/-- The state with that event taken. -/
def takeEvent (s : State) : State := { s with events := s.events.tail, strobes := s.strobes + 1 }

/-! ### The parts of a cycle before execution -/

/-- R122, R123, R255: the fetch checks, the bounds before the alignment. -/
def fetchFault (alignStrict : Bool) (a : Word) : Option Fault :=
  if a.toNat < 0x200 ∨ 0xFFE < a.toNat then some .pcOutOfBounds
  else if decide (a.toNat % 2 = 1) && alignStrict then some .pcMisaligned
  else none

/-- R60, R124: the word at an address, the byte at the lower address most significant. -/
def Memory.fetch (m : Memory) (a : Word) : Word := m.read a.toNat ++ m.read (a.toNat + 1)

/-- R121, R254: a strobe of a halted CORE changes no state and outputs `redraw = false`. -/
def idleCycle (s : State) : State := { s with redraw := false }

/-- The fetch address of the cycle kept for the fault record (R252). -/
def latchFetchAddr (s : State) : State := { s with fetchAddr := s.pc }

/-- R124 to R128, the part of a cycle between the fetch checks and the decoding: the word is fetched, the pc advanced, the
timers updated, the redraw output set to false, and the key sample held for the instruction (R120). -/
def beginCycle (unitsPerSecond now : Nat) (key : Option Key) (s : State) : State :=
  timerTick unitsPerSecond now
    { s with
      pc := s.pc + 2
      redraw := false
      key := key
      fetchAddr := s.pc
      fetchWord := s.mem.fetch s.pc }

/-! ### The output ports -/

/-- R37: the display read port, a cell of the grid; off the grid there is no cell. -/
def displayPort (s : State) (c r : Nat) : Option Bool := do
  let column ← s.disp[c]?
  column[r]?

/-- R37: the redraw output. -/
def redrawPort (s : State) : Bool := s.redraw

/-- R37: the halt output, the diagnostic. -/
def haltedPort (s : State) : Option FaultRecord := s.halted

/-- R37, R263: the sound timer's output. -/
def soundPort (s : State) : Byte := s.st

end Sys2Proof.Machine
end

