-- ==== Sys2Proof/Machine/Cycle.lean ====
section
/-! DEFINITION. The cycle (spec/40_cycle.md) and the host's acts (spec/10_state.md R35, R36), over a given execution of instructions; the
step passes `exec`. -/

namespace Sys2Proof.Machine

/-- R120 to R128: one cycle with its samples, for settings of `PC_ALIGN_STRICT` and `TIME_UNITS_PER_SECOND`. A halted CORE does
nothing (R121); the fetch checks come first (R122, R123), then the fetch, the pc advance and the timer update (R124 to R126), the
decoding (R127) and the execution (R128). -/
def cycleWith (alignStrict : Bool) (unitsPerSecond : Nat) (run : Instr → State → Host.Outcome State Fault Refusal)
    (now : Nat) (key : Option Key) (s : State) : Host.Outcome State Fault Refusal :=
  match s.halted with
  | some _ => .next (idleCycle s)
  | none =>
    match fetchFault alignStrict s.pc with
    | some code => .next (raiseFatal code none none (latchFetchAddr s))
    | none =>
      match decodeWord (s.mem.fetch s.pc) with
      | .error _ => .next (raiseAtExecute .decodeFailure none (beginCycle unitsPerSecond now key s))
      | .ok i => run i (beginCycle unitsPerSecond now key s)

/-- One act of the host: a cycle, or a reset (R280). -/
def stepWith (alignStrict : Bool) (unitsPerSecond : Nat) (run : Instr → State → Host.Outcome State Fault Refusal)
    (s : State) : Host.Outcome State Fault Refusal :=
  match nextEvent s with
  | .cycle now key => cycleWith alignStrict unitsPerSecond run now key (takeEvent s)
  | .reset seed t0 image => .next (applyReset seed t0 image (takeEvent s))

/-- Where `withFetchWord` puts its word: the pc where a fetch from it passes the checks, the entry point where not (log entry 15). -/
def fetchSlot (s : State) : Word := if (fetchFault Config.pcAlignStrict s.pc).isNone then s.pc else 0x200

/-- A state with one instruction word stored where the next step fetches it (R60), the CORE running and a cycle next (log entry 15). -/
def placeWord (w : Word) (s : State) : State :=
  { s with
    pc := fetchSlot s
    mem := s.mem.writeBytes (fetchSlot s).toNat (bytesOfWord w)
    halted := none
    events := s.events.dropWhile HostEvent.isReset }

end Sys2Proof.Machine
end

