-- ==== Sys2Proof/Machine/Operands.lean ====
section
/-! DEFINITION. The operand forms (spec/30_encoding.md R84) and what the instructions compute from them before they write
(spec/00_scope.md R12): addresses, register lists, digits, sprites and the key match. -/

namespace Sys2Proof.Machine

/-- R84: `zext_16(nnn)`. -/
def addressOf (nnn : Addr12) : Word := nnn.setWidth 16

/-- R233: `zext_8(k)`. -/
def keyByte (k : Key) : Byte := k.setWidth 8

/-- R231, R232: `key = some k and V[x] = k`. -/
def keyIs (key : Option Key) (b : Byte) : Bool :=
  match key with
  | some k => decide (b = keyByte k)
  | none => false

/-- R194: the registers `V[0]` to `V[x]`, in that order. -/
def regsUpTo (s : State) (x : Reg) : List Byte := s.v.toList.take (x.val + 1)

/-- R195: the register file with `V[k]` loaded from address `a + k` for every `k` from 0 to `x`. -/
def loadRegs (m : Memory) (a : Nat) (x : Reg) (v : RegFile) : RegFile :=
  (List.range (x.val + 1)).foldl (fun v k => v.setIfInBounds k (m.read (a + k))) v

/-- R193: the three decimal digits of a byte, most significant first. -/
def bcdDigits (b : Byte) : List Byte :=
  [BitVec.ofNat 8 (b.toNat / 100), BitVec.ofNat 8 (b.toNat / 10 % 10), BitVec.ofNat 8 (b.toNat % 10)]

/-- R192, D10: the digit FontChar takes of a register. -/
def fontDigitOf (mode : FontDigit) (b : Byte) : Nat :=
  match mode with
  | .lowNibble => b.toNat % 16
  | .full => b.toNat

/-- R192: the glyph address of a register, `FONT_BASE + 5 * d`. -/
def glyphAddress (mode : FontDigit) (b : Byte) : Word :=
  BitVec.ofNat 16 (Config.fontBase + 5 * fontDigitOf mode b)

/-- R213: pixel column `c` of a sprite row, bit `7 - c`. -/
def spriteBit (b : Byte) (c : Nat) : Bool := b.getLsbD (7 - c)

/-- A display under composition and whether a lit cell has been turned off. -/
abbrev Composition := Display × Bool

/-- R210, R212: one set sprite pixel at `(px, py)`: it toggles its cell on the grid and does nothing off it. -/
def togglePixel (px py : Nat) (acc : Composition) : Composition :=
  if h : px < 64 ∧ py < 32 then
    (acc.1.set px (acc.1[px].set py (!acc.1[px][py])), acc.2 || acc.1[px][py])
  else acc

/-- R212: one sprite row at grid row `py`, columns left to right. -/
def compositeRow (cx py : Nat) (row : Byte) (acc : Composition) : Composition :=
  (List.range 8).foldl (fun acc c => if spriteBit row c then togglePixel (cx + c) py acc else acc) acc

/-- R212: the sprite rows from grid row `py` down. -/
def compositeRows (cx py : Nat) : List Byte → Composition → Composition
  | [], acc => acc
  | row :: rows, acc => compositeRows cx (py + 1) rows (compositeRow cx py row acc)

/-- R210: the anchor column, `V[x] mod 64`. -/
def anchorColumn (b : Byte) : Nat := b.toNat % 64

/-- R210: the anchor row, `V[y] mod 32`. -/
def anchorRow (b : Byte) : Nat := b.toNat % 32

/-- R212: the display after Draw's sprite, and its collision, from the registers and memory as they stand; every row is read. -/
def composeSprite (s : State) (x y : Reg) (n : Nibble) : Composition :=
  compositeRows (anchorColumn (s.getV x)) (anchorRow (s.getV y)) (s.mem.readBytes s.index.toNat n.toNat) (s.disp, false)

end Sys2Proof.Machine
end

