-- ==== Sys2Proof/Machine/Flags.lean ====
section
/-! DEFINITION. The flag computations and the writes of VF as a flag (spec/10_state.md R21, R23; spec/42_alu.md R160, R161). The CORE has no
other flag. -/

namespace Sys2Proof.Machine

/-- R168: Add's flag, 1 iff the exact sum exceeds 255. -/
def carryFlag (a b : Byte) : Byte := flagByte (decide (255 < a.toNat + b.toNat))

/-- R169, R170: the flag of `a - b`, 0 on a borrow and 1 otherwise. -/
def noBorrowFlag (a b : Byte) : Byte := if a.toNat < b.toNat then 0 else 1

/-- R191: AddToIndex's flag, 1 iff the exact sum exceeds 0xFFFF. -/
def indexFlag (i : Word) (b : Byte) : Byte := flagByte (decide (0xFFFF < i.toNat + b.toNat))

/-- R191: the index sum, reduced mod 65536. -/
def indexSum (i : Word) (b : Byte) : Word := BitVec.ofNat 16 (i.toNat + b.toNat)

/-- R161: `WriteWithFlag(x, r, f)` for a write order. -/
def writeWithFlag (order : VfWriteOrder) (x : Reg) (r f : Byte) (s : State) : State :=
  s.setRegs (match order with
    | .flagLast => (s.v.set x r).set VF f
    | .resultLast => (s.v.set VF f).set x r)

/-- R212: Draw's collision flag, written only where the parameter says so. -/
def writeCollision (collisionVf collided : Bool) (s : State) : State :=
  s.setRegs (if collisionVf then s.v.set VF (flagByte collided) else s.v)

end Sys2Proof.Machine
end

