-- ==== Sys2Proof/Machine/Alu.lean ====
section
/-! DEFINITION. The ALU and shift unit (spec/42_alu.md). 8-bit bit vectors wrap modulo 256, as R20 and R160 say. -/

namespace Sys2Proof.Machine

/-- R162. -/
def execLoadImm (x : Reg) (kk : Byte) (s : State) : Host.Outcome State Fault Refusal := .next (s.setV x kk)

/-- R163: VF is not written as a flag (D16). -/
def execAddImm (x : Reg) (kk : Byte) (s : State) : Host.Outcome State Fault Refusal :=
  .next (s.setV x (s.getV x + kk))

/-- R164. -/
def execMove (x y : Reg) (s : State) : Host.Outcome State Fault Refusal := .next (s.setV x (s.getV y))

/-- R165. -/
def execOr (x y : Reg) (s : State) : Host.Outcome State Fault Refusal := .next (s.setV x (s.getV x ||| s.getV y))

/-- R166. -/
def execAnd (x y : Reg) (s : State) : Host.Outcome State Fault Refusal := .next (s.setV x (s.getV x &&& s.getV y))

/-- R167. -/
def execXor (x y : Reg) (s : State) : Host.Outcome State Fault Refusal := .next (s.setV x (s.getV x ^^^ s.getV y))

/-- R168. -/
def execAdd (x y : Reg) (s : State) : Host.Outcome State Fault Refusal :=
  .next (writeWithFlag Config.vfWriteOrder x (s.getV x + s.getV y) (carryFlag (s.getV x) (s.getV y)) s)

/-- R169: `x - y`. -/
def execSubForward (x y : Reg) (s : State) : Host.Outcome State Fault Refusal :=
  .next (writeWithFlag Config.vfWriteOrder x (s.getV x - s.getV y) (noBorrowFlag (s.getV x) (s.getV y)) s)

/-- R170: `y - x`. -/
def execSubBackward (x y : Reg) (s : State) : Host.Outcome State Fault Refusal :=
  .next (writeWithFlag Config.vfWriteOrder x (s.getV y - s.getV x) (noBorrowFlag (s.getV y) (s.getV x)) s)

/-- R171: the `y` field plays no part, and VF is not written as a flag. -/
def execShiftRight (x : Reg) (s : State) : Host.Outcome State Fault Refusal := .next (s.setV x (s.getV x >>> 1))

/-- R172: the `y` field plays no part, and VF is not written as a flag. -/
def execShiftLeft (x : Reg) (s : State) : Host.Outcome State Fault Refusal := .next (s.setV x (s.getV x <<< 1))

/-- R173. -/
def execRandom (x : Reg) (kk : Byte) (s : State) : Host.Outcome State Fault Refusal :=
  .next ((s.setPrng (Config.prngNext s.prng).2).setV x ((Config.prngNext s.prng).1 &&& kk))

end Sys2Proof.Machine
end

