-- ==== Sys2Proof/Machine/Control.lean ====
section
/-! DEFINITION. Control transfer (spec/41_control_flow.md). -/

namespace Sys2Proof.Machine

/-- R140. -/
def execReturn (s : State) : Host.Outcome State Fault Refusal := .next (popPc s)

/-- R141. -/
def execJump (nnn : Addr12) (s : State) : Host.Outcome State Fault Refusal := .next (s.setPc (addressOf nnn))

/-- R142, with the normative unbounded stack (D23). -/
def execCall (nnn : Addr12) (s : State) : Host.Outcome State Fault Refusal :=
  .next (pushPcAndJump Config.stackCapacity (addressOf nnn) s)

/-- R143. -/
def execSkipEqImm (x : Reg) (kk : Byte) (s : State) : Host.Outcome State Fault Refusal :=
  .next (skipIf (decide (s.getV x = kk)) s)

/-- R144. -/
def execSkipNeqImm (x : Reg) (kk : Byte) (s : State) : Host.Outcome State Fault Refusal :=
  .next (skipIf (decide (s.getV x ≠ kk)) s)

/-- R145. -/
def execSkipEqReg (x y : Reg) (s : State) : Host.Outcome State Fault Refusal :=
  .next (skipIf (decide (s.getV x = s.getV y)) s)

/-- R146. -/
def execSkipNeqReg (x y : Reg) (s : State) : Host.Outcome State Fault Refusal :=
  .next (skipIf (decide (s.getV x ≠ s.getV y)) s)

end Sys2Proof.Machine
end

