-- ==== Sys2Proof/Machine/DisplayUnit.lean ====
section
/-! DEFINITION. The display buffer controller (spec/44_display.md). -/

namespace Sys2Proof.Machine

/-- R211: the redraw output is asserted (D20). -/
def execClearScreen (s : State) : Host.Outcome State Fault Refusal := .next (s.present Display.blank)

/-- R212 for a setting of `DRAW_COLLISION_VF`. -/
def drawSprite (collisionVf : Bool) (x y : Reg) (n : Nibble) (s : State) : State :=
  withSpan s.index.toNat n.toNat s
    (writeCollision collisionVf (composeSprite s x y n).2 (s.present (composeSprite s x y n).1))

/-- R212. -/
def execDraw (x y : Reg) (n : Nibble) (s : State) : Host.Outcome State Fault Refusal :=
  .next (drawSprite Config.drawCollisionVf x y n s)

end Sys2Proof.Machine
end

