-- ==== Sys2Proof/Machine/IndexMemory.lean ====
section
/-! DEFINITION. The index register and memory transfers (spec/43_index_memory.md). -/

namespace Sys2Proof.Machine

/-- R190. -/
def execLoadIndex (nnn : Addr12) (s : State) : Host.Outcome State Fault Refusal := .next (s.setIndex (addressOf nnn))

/-- R191: VF is written after the addend is read. -/
def execAddToIndex (x : Reg) (s : State) : Host.Outcome State Fault Refusal :=
  .next ((s.setIndex (indexSum s.index (s.getV x))).setV VF (indexFlag s.index (s.getV x)))

/-- R192. -/
def execFontChar (x : Reg) (s : State) : Host.Outcome State Fault Refusal :=
  .next (s.setIndex (glyphAddress Config.fontDigit (s.getV x)))

/-- R193. -/
def execStoreBCD (x : Reg) (s : State) : Host.Outcome State Fault Refusal :=
  .next (withSpan s.index.toNat 3 s (s.setMem (s.mem.writeBytes s.index.toNat (bcdDigits (s.getV x)))))

/-- R194: the index register is left as it was. -/
def execStoreRange (x : Reg) (s : State) : Host.Outcome State Fault Refusal :=
  .next (withSpan s.index.toNat (x.val + 1) s (s.setMem (s.mem.writeBytes s.index.toNat (regsUpTo s x))))

/-- R195: the index register is left as it was. -/
def execLoadRange (x : Reg) (s : State) : Host.Outcome State Fault Refusal :=
  .next (withSpan s.index.toNat (x.val + 1) s (s.setRegs (loadRegs s.mem s.index.toNat x s.v)))

end Sys2Proof.Machine
end

