-- ==== Sys2Proof/Machine/KeysTimers.lean ====
section
/-! DEFINITION. Key input and timer access (spec/45_keys_timers.md). -/

namespace Sys2Proof.Machine

/-- R231. -/
def execSkipKeyPressed (x : Reg) (s : State) : Host.Outcome State Fault Refusal :=
  .next (skipIf (keyIs s.key (s.getV x)) s)

/-- R232. -/
def execSkipKeyNotPressed (x : Reg) (s : State) : Host.Outcome State Fault Refusal :=
  .next (skipIf (!keyIs s.key (s.getV x)) s)

/-- R233: the spin-wait. -/
def awaitKey (x : Reg) (s : State) : State :=
  match s.key with
  | none => rewindPc s
  | some k => s.setV x (keyByte k)

/-- R233. -/
def execWaitKey (x : Reg) (s : State) : Host.Outcome State Fault Refusal := .next (awaitKey x s)

/-- R234: `DT` as it stands after this cycle's timer update. -/
def execLoadDelay (x : Reg) (s : State) : Host.Outcome State Fault Refusal := .next (s.setV x s.dt)

/-- R235: the timer baseline is left as it was. -/
def execStoreDelay (x : Reg) (s : State) : Host.Outcome State Fault Refusal := .next (s.setDt (s.getV x))

/-- R236. -/
def execStoreSound (x : Reg) (s : State) : Host.Outcome State Fault Refusal := .next (s.setSt (s.getV x))

end Sys2Proof.Machine
end

