-- ==== Sys2Proof/Machine/Step.lean ====
section
/-! DEFINITION. The step: the host's next act, a cycle (spec/40_cycle.md) or a reset (spec/70_reset_and_hazards.md). -/

namespace Sys2Proof.Machine

/-- One act of the host (R120, R280). -/
def step (s : State) : Host.Outcome State Fault Refusal :=
  stepWith Config.pcAlignStrict Config.timeUnitsPerSecond exec s

/-- The state with a row's word stored where the next step fetches its instruction, so that it runs exactly that. -/
def State.withFetchWord (s : State) (nbits w : Nat) : State := placeWord (tableWord nbits w) s

end Sys2Proof.Machine
end

