-- ==== Sys2Proof/Safety.lean ====
section
/-! DEFINITION. The words claims use: a running CORE, a fatal halt, what an instruction leaves as it was, which elements each
instruction may write, and the invariants. -/

namespace Sys2Proof.Machine

/-! ### Running and halting -/

/-- R33: the CORE runs. -/
abbrev Running (s : State) : Prop := s.halted = none

/-- A step that ends in the fatal halt with a record (R250, R252), the redraw output false (R129). -/
def Halts (o : Host.Outcome State Fault Refusal) (r : FaultRecord) : Prop :=
  ∃ t, o = .next t ∧ t.halted = some r ∧ t.redraw = false

/-- A run of `k` host events that meets no fatal halt: the runs a claim about a program may rest on (R131, R253). -/
def SafeRun : Nat → State → Prop
  | 0, s => Running s
  | k + 1, s => Running s ∧ ∃ t, step s = .next t ∧ SafeRun k t

/-- The address `a` fetches without a fault for a setting of `PC_ALIGN_STRICT` (R122, R123). -/
def Fetchable (alignStrict : Bool) (a : Word) : Prop :=
  0x200 ≤ a.toNat ∧ a.toNat ≤ 0xFFE ∧ (alignStrict = true → a.toNat % 2 = 0)

/-! ### Frames -/

/-- The elements of the state (10_state.md), the redraw output among them. -/
inductive Element where
  | v | pc | index | stack | dt | st | disp | mem | prng | lastTick | halted | redraw
deriving DecidableEq, Repr

/-- An element is the same in two states; memory byte by byte, at every address. -/
def Element.same (e : Element) (s t : State) : Prop :=
  match e with
  | .v => ∀ r : Reg, t.getV r = s.getV r
  | .pc => t.pc = s.pc
  | .index => t.index = s.index
  | .stack => t.stack = s.stack
  | .dt => t.dt = s.dt
  | .st => t.st = s.st
  | .disp => t.disp = s.disp
  | .mem => ∀ a, t.mem.read a = s.mem.read a
  | .prng => t.prng = s.prng
  | .lastTick => t.lastTick = s.lastTick
  | .halted => t.halted = s.halted
  | .redraw => t.redraw = s.redraw

/-- The model's own fields are the same. -/
def SameSignals (s t : State) : Prop :=
  t.key = s.key ∧ t.fetchAddr = s.fetchAddr ∧ t.fetchWord = s.fetchWord ∧ t.events = s.events ∧ t.strobes = s.strobes

/-- Everything is the same but the listed elements. -/
def OnlyChanges (es : List Element) (s t : State) : Prop :=
  (∀ e, e ∉ es → e.same s t) ∧ SameSignals s t

/-- Every register is the same but the listed ones. -/
def OnlyRegs (xs : List Reg) (s t : State) : Prop := ∀ r, r ∉ xs → t.getV r = s.getV r

/-- Every byte of memory is the same but `n` bytes from address `a` on. -/
def OnlyBytes (a n : Nat) (s t : State) : Prop := ∀ a', a' < a ∨ a + n ≤ a' → t.mem.read a' = s.mem.read a'

/-- The instruction runs, puts a value into one register, and changes nothing else; the pc stays where the fetch advanced it. -/
def SetsRegister (i : Instr) (s : State) (x : Reg) (b : Byte) : Prop :=
  ∃ t, exec i s = .next t ∧ t.getV x = b ∧ OnlyRegs [x] s t ∧ OnlyChanges [.v] s t

/-- The instruction runs and skips the next word iff the condition holds (R130), changing nothing but the pc. -/
def SkipsIff (i : Instr) (s : State) (c : Prop) : Prop :=
  ∃ t, exec i s = .next t ∧ (c → t.pc = s.pc + 2) ∧ (¬ c → t.pc = s.pc) ∧ OnlyChanges [.pc] s t

/-- The instruction runs and writes a result into `V[x]` and a flag into VF; with `x = 0xF` the register holds the one that
`VF_WRITE_ORDER` writes last (R161). Nothing else changes. -/
def SetsWithFlag (i : Instr) (s : State) (x : Reg) (r f : Byte) : Prop :=
  ∃ t, exec i s = .next t ∧
    (x ≠ VF → t.getV x = r ∧ t.getV VF = f) ∧
    (x = VF → t.getV VF = match Config.vfWriteOrder with | .flagLast => f | .resultLast => r) ∧
    OnlyRegs [x, VF] s t ∧ OnlyChanges [.v] s t

/-! ### What each instruction may write -/

/-- The elements an instruction that meets no fault may write: registers R21 and R22, the pc R24 and R147, `I` R25, the stack R26, the
timers R27, the display R28 and R129, memory R29, the PRNG R31. -/
def mayWrite (i : Instr) : List Element :=
  match i with
  | .clearScreen => [.disp, .redraw]
  | .ret | .call _ => [.pc, .stack]
  | .jump _ | .skipEqImm _ _ | .skipNeqImm _ _ | .skipEqReg _ _ | .skipNeqReg _ _
  | .skipKeyPressed _ | .skipKeyNotPressed _ => [.pc]
  | .loadImm _ _ | .addImm _ _ | .move _ _ | .or _ _ | .and _ _ | .xor _ _ | .add _ _ | .subForward _ _
  | .subBackward _ _ | .shiftRight _ | .shiftLeft _ | .loadDelay _ | .loadRange _ => [.v]
  | .loadIndex _ | .fontChar _ => [.index]
  | .addToIndex _ => [.v, .index]
  | .random _ _ => [.v, .prng]
  | .draw _ _ _ => [.v, .disp, .redraw]
  | .waitKey _ => [.v, .pc]
  | .storeDelay _ => [.dt]
  | .storeSound _ => [.st]
  | .storeBCD _ | .storeRange _ => [.mem]

/-- The registers an instruction may write (R21, R22); Draw's flag only where `DRAW_COLLISION_VF` is true. -/
def mayWriteReg (i : Instr) (r : Reg) : Bool :=
  match i with
  | .loadImm x _ | .addImm x _ | .move x _ | .or x _ | .and x _ | .xor x _ | .shiftRight x | .shiftLeft x
  | .random x _ | .loadDelay x | .waitKey x => decide (r = x)
  | .add x _ | .subForward x _ | .subBackward x _ => decide (r = x) || decide (r = VF)
  | .addToIndex _ => decide (r = VF)
  | .draw _ _ _ => Config.drawCollisionVf && decide (r = VF)
  | .loadRange x => decide (r ≤ x)
  | .clearScreen | .ret | .jump _ | .call _ | .skipEqImm _ _ | .skipNeqImm _ _ | .skipEqReg _ _ | .skipNeqReg _ _
  | .loadIndex _ | .skipKeyPressed _ | .skipKeyNotPressed _ | .storeDelay _ | .storeSound _ | .fontChar _
  | .storeBCD _ | .storeRange _ => false

/-- The fault of its own an instruction may meet (R255); with the normative unbounded stack Call has none (R142). -/
def mayRaise (i : Instr) : Option Fault :=
  match i with
  | .ret => some .stackUnderflow
  | .storeBCD _ | .storeRange _ | .loadRange _ | .draw _ _ _ => some .memoryOutOfBounds
  | .clearScreen | .jump _ | .call _ | .skipEqImm _ _ | .skipNeqImm _ _ | .skipEqReg _ _ | .loadImm _ _ | .addImm _ _
  | .move _ _ | .or _ _ | .and _ _ | .xor _ _ | .add _ _ | .subForward _ _ | .shiftRight _ | .subBackward _ _
  | .shiftLeft _ | .skipNeqReg _ _ | .loadIndex _ | .random _ _ | .skipKeyPressed _ | .skipKeyNotPressed _
  | .loadDelay _ | .waitKey _ | .storeDelay _ | .storeSound _ | .addToIndex _ | .fontChar _ => none

/-- R129: the instructions that assert the redraw output. -/
def assertsRedraw (i : Instr) : Prop := i = .clearScreen ∨ ∃ x y n, i = .draw x y n

/-! ### Draw's sprite -/

/-- R212, R213: whether a set sprite pixel of Draw lies at column `c`, row `r`, from the state before it: the anchor is reduced,
the offsets are not (R210); row `k` of the sprite is the byte at `I + k`, bit `7 - j` its column `j`. -/
def spriteCovers (s : State) (x y : Reg) (n : Nibble) (c r : Nat) : Prop :=
  (s.getV x).toNat % 64 ≤ c ∧ c < (s.getV x).toNat % 64 + 8 ∧
  (s.getV y).toNat % 32 ≤ r ∧ r < (s.getV y).toNat % 32 + n.toNat ∧
  (s.mem.read (s.index.toNat + (r - (s.getV y).toNat % 32))).getLsbD (7 - (c - (s.getV x).toNat % 64)) = true

/-! ### Invariants -/

/-- Memory keeps its canonical form (log entry 14): every listed address is below 4096 (R29), and equal memories are equal data. -/
abbrev MemoryCanonical (s : State) : Prop := s.mem.wf = true

/-- R24, R26: while the CORE runs, the pc is at most 0x1002 (a skip at 0xFFE) and every return address is that of a Call plus 2.
After a fatal halt both are unspecified (R253). -/
def PcBounded (s : State) : Prop :=
  Running s → s.pc.toNat ≤ 0x1002 ∧ ∀ a ∈ s.stack, 0x202 ≤ a.toNat ∧ a.toNat ≤ 0x1000

end Sys2Proof.Machine
end

