-- ==== Sys2Proof/Certificates/Slice0/Obligations.lean ====
section
/-! DEFINITION. The statements for the provers, each about a numbered rule of spec/ (see OBLIGATIONS.json). `s.fetchAddr` and `s.fetchWord`
are the `a` and `w` of the cycle's pseudocode: StepRunsDecodedInstruction says so. -/

open Sys2Proof Sys2Proof.Machine

/-! ### Encoding -/

/-- R81, R86 to R92, R95: decoding an encoded instruction gives it back, from its word and from its bytes with anything after them.
Rests on the spec's own decision D27. -/
def Obligations.DecodeOfEncodeIsIdentity : Prop :=
  ∀ (i : Instr) (rest : List Byte),
    i.wellFormed = true ∧ decodeWord (encode i) = .ok i ∧ decodeBytes (bytesOfWord (encode i) ++ rest) = .ok (i, rest)

/-- R93: the ignored `y` of the shifts is the only don't-care field. Every other decoded word is the encoding of its instruction.
Rests on the spec's own decision D27. -/
def Obligations.EncodeOfDecodeRestoresTheWord : Prop :=
  ∀ (w : Word) (i : Instr), decodeWord w = .ok i →
    encode i = match i with
      | .shiftRight _ => w &&& 0xFF0F#16
      | .shiftLeft _ => w &&& 0xFF0F#16
      | _ => w

/-- R96: a word is a row's instruction iff `(w & mask) = match`, no word matches two rows, there is one row per instruction, and the
opcode map lists exactly the instructions of each group.
Rests on the spec's own decision D13. -/
def Obligations.WordDecodesExactlyToItsTableRow : Prop :=
  (∀ (w : Word), ∀ row ∈ opcodeTable,
    (w &&& row.mask = row.pattern ↔ ∃ i, decodeWord w = .ok i ∧ i.tag = row.tag) ∧
    ∀ row' ∈ opcodeTable, w &&& row.mask = row.pattern → w &&& row'.mask = row'.pattern → row' = row) ∧
  (∀ tag : Tag, ∃ row ∈ opcodeTable, row.tag = tag ∧ ∀ row' ∈ opcodeTable, row'.tag = tag → row' = row) ∧
  (∀ (op : BitVec 4) (tag : Tag), tag ∈ opcodeMap op ↔ ∃ w i, opField w = op ∧ decodeWord w = .ok i ∧ i.tag = tag)

/-- R85, R93: the decoder is total; it answers `Unrecognized` exactly for the words no row of the table covers, all of group 0xB among them.
Rests on the spec's own decision D13. -/
def Obligations.UnrecognizedExactlyOutsideTheTable : Prop :=
  ∀ (w : Word),
    ((∃ i, decodeWord w = .ok i) ∨ decodeWord w = .error (.unrecognized w)) ∧
    (decodeWord w = .error (.unrecognized w) ↔ ∀ row ∈ opcodeTable, w &&& row.mask ≠ row.pattern) ∧
    (opField w = 0xB#4 → decodeWord w = .error (.unrecognized w))

/-- R82, R83: the four nibbles recompose to the word, and the extraction of width 4 at position 0 is the word.
Rests on the spec's own decision D2. -/
def Obligations.NibbleExtractorRoundTrip : Prop :=
  ∀ (w : Word),
    ((nib w 0 1).setWidth 16 <<< 12 ||| (nib w 1 1).setWidth 16 <<< 8 ||| (nib w 2 1).setWidth 16 <<< 4 |||
      (nib w 3 1).setWidth 16 : Word) = w ∧
    nib w 0 4 = w

/-- R86 to R91: words written out from the encodings, one per family, decode to what they stand for. -/
def Obligations.SampleWordsDecode : Prop :=
  decodeWord 0x00E0 = .ok .clearScreen ∧ decodeWord 0x2300 = .ok (.call 0x300) ∧
  decodeWord 0x7ABC = .ok (.addImm 0xA 0xBC) ∧ decodeWord 0x8AB6 = .ok (.shiftRight 0xA) ∧
  decodeWord 0xA2E0 = .ok (.loadIndex 0x2E0) ∧ decodeWord 0xDEAF = .ok (.draw 0xE 0xA 0xF) ∧
  decodeWord 0xEFA1 = .ok (.skipKeyNotPressed 0xF) ∧ decodeWord 0xF165 = .ok (.loadRange 1) ∧
  decodeWord 0x5121 = .error (.unrecognized 0x5121) ∧ decodeWord 0xB123 = .error (.unrecognized 0xB123)

/-- R95: an instruction's written form assembles to it, exactly the well-formed written forms assemble, and the shifts assemble
with or without the second register.
Rests on the spec's own decision D27. -/
def Obligations.WrittenFormsAssemble : Prop :=
  (∀ i : Instr, i.toTerm.assemble = some i) ∧
  (∀ t : AsmTerm, t.assemble = none ↔ t.wellFormed = false) ∧
  (∀ x y : Reg, AsmTerm.assemble ⟨.shiftRight, [.reg x, .reg y]⟩ = some (.shiftRight x) ∧
    AsmTerm.assemble ⟨.shiftLeft, [.reg x, .reg y]⟩ = some (.shiftLeft x))

/-! ### The cycle -/

/-- R120, R124 to R128: with the CORE running and the two bytes at a fetchable pc decoding to an instruction, a step of a cycle event is
`exec` of it in the state whose pc is advanced, whose timers have had this cycle's update (R259), whose redraw output is false and
whose key sample, fetch address and fetched word are this cycle's; all else is as before.
Rests on the spec's own decisions D1, D4, D5, D22. -/
def Obligations.StepRunsDecodedInstruction : Prop :=
  ∀ (s : State) (now : Nat) (key : Option Key) (i : Instr),
    nextEvent s = .cycle now key → Running s → Fetchable Config.pcAlignStrict s.pc →
    decodeBytes [s.mem.read s.pc.toNat, s.mem.read (s.pc.toNat + 1)] = .ok (i, []) → i.wellFormed = true →
    ∃ u, step s = exec i u ∧ u.pc = s.pc + 2 ∧ u.key = key ∧ u.redraw = false ∧ u.fetchAddr = s.pc ∧
      u.fetchWord = wordOfBytes (s.mem.read s.pc.toNat) (s.mem.read (s.pc.toNat + 1)) ∧
      (u.dt, u.st, u.lastTick) =
        (if s.lastTick ≤ now ∧ Config.timeUnitsPerSecond ≤ 60 * (now - s.lastTick)
          then (BitVec.ofNat 8 (s.dt.toNat - 1), BitVec.ofNat 8 (s.st.toNat - 1), now) else (s.dt, s.st, s.lastTick)) ∧
      u.v = s.v ∧ u.index = s.index ∧ u.stack = s.stack ∧ u.disp = s.disp ∧ u.mem = s.mem ∧ u.prng = s.prng ∧
      u.halted = none ∧ u.events = s.events.tail ∧ u.strobes = s.strobes + 1

/-- R60: the instruction word is `(MemRead(a, 1) << 8) | MemRead(a + 1, 1)`.
Rests on the spec's own decision D1. -/
def Obligations.FetchIsBigEndian : Prop :=
  ∀ (m : Memory) (a : Word),
    m.fetch a = (m.read a.toNat).setWidth 16 <<< 8 ||| (m.read (a.toNat + 1)).setWidth 16

/-- R122, R123, R255, for either setting of `PC_ALIGN_STRICT`: a fetch outside 0x200 to 0xFFE halts, an odd fetch in that range halts
only where the setting is strict, and no other fetch meets either fault. A step of a cycle event is such a cycle.
Rests on the spec's own decisions D4, D5, D20, D24. -/
def Obligations.FetchChecksDecideTheFetchFaults : Prop :=
  (∀ (strict : Bool) (units now : Nat) (key : Option Key) (s : State), Running s →
    ((s.pc.toNat < 0x200 ∨ 0xFFE < s.pc.toNat) →
      Halts (cycleWith strict units exec now key s) ⟨.pcOutOfBounds, s.pc, none, none⟩) ∧
    (0x200 ≤ s.pc.toNat → s.pc.toNat ≤ 0xFFE → s.pc.toNat % 2 = 1 → strict = true →
      Halts (cycleWith strict units exec now key s) ⟨.pcMisaligned, s.pc, none, none⟩) ∧
    (Fetchable strict s.pc → ∀ t r, cycleWith strict units exec now key s = .next t → t.halted = some r →
      r.code ≠ .pcOutOfBounds ∧ r.code ≠ .pcMisaligned)) ∧
  (∀ (s : State) (now : Nat) (key : Option Key), nextEvent s = .cycle now key →
    step s = cycleWith Config.pcAlignStrict Config.timeUnitsPerSecond exec now key (takeEvent s))

/-- R127: a fetched word that decodes to no instruction halts, naming the address and the word.
Rests on the spec's own decisions D20, D24. -/
def Obligations.UnrecognizedWordHalts : Prop :=
  ∀ (strict : Bool) (units now : Nat) (key : Option Key) (s : State),
    Running s → Fetchable strict s.pc → decodeWord (s.mem.fetch s.pc) = .error (.unrecognized (s.mem.fetch s.pc)) →
    Halts (cycleWith strict units exec now key s) ⟨.decodeFailure, s.pc, some (s.mem.fetch s.pc), none⟩

/-- R121, R254: while halted, every cycle strobe changes no state and outputs `redraw = false`, for a run of any length; a reset clears the halt.
Rests on the spec's own decision D24. -/
def Obligations.HaltIsStickyUntilReset : Prop :=
  (∀ (k : Nat) (s : State) (r : FaultRecord), s.halted = some r → (∀ e ∈ s.events, e.isReset = false) →
    ∃ t, core.run k s = .next t ∧ t.halted = some r ∧ (∀ e : Element, e ≠ .redraw → e.same s t) ∧
      (k ≠ 0 → t.redraw = false)) ∧
  (∀ (s : State) (seed t0 : Nat) (image : List Byte), nextEvent s = .reset seed t0 image →
    ∃ t, step s = .next t ∧ Running t)

/-- R129: after a cycle the redraw output is true iff the cycle executed Draw or ClearScreen; a halted cycle and a cycle that ends in a
fatal halt output false.
Rests on the spec's own decision D20. -/
def Obligations.RedrawIffDrawOrClearScreen : Prop :=
  ∀ (s : State) (now : Nat) (key : Option Key), nextEvent s = .cycle now key →
    ∃ t, step s = .next t ∧
      (t.redraw = true ↔ Running s ∧ Running t ∧ Fetchable Config.pcAlignStrict s.pc ∧
        ∃ i, decodeWord (s.mem.fetch s.pc) = .ok i ∧ assertsRedraw i)

/-- R255, for either setting of `PC_ALIGN_STRICT`: a cycle that halts reports the first fault in cycle order: the fetch bounds, the fetch
alignment, the decoding, and then the one fault the decoded instruction may meet.
Rests on the spec's own decisions D4, D5. -/
def Obligations.FirstFaultInCycleOrderIsReported : Prop :=
  ∀ (strict : Bool) (units now : Nat) (key : Option Key) (s t : State) (r : FaultRecord),
    Running s → cycleWith strict units exec now key s = .next t → t.halted = some r →
    ((s.pc.toNat < 0x200 ∨ 0xFFE < s.pc.toNat) → r.code = .pcOutOfBounds) ∧
    (0x200 ≤ s.pc.toNat → s.pc.toNat ≤ 0xFFE → ¬ Fetchable strict s.pc → r.code = .pcMisaligned) ∧
    (Fetchable strict s.pc → (∀ i, decodeWord (s.mem.fetch s.pc) ≠ .ok i) → r.code = .decodeFailure) ∧
    (Fetchable strict s.pc → ∀ i, decodeWord (s.mem.fetch s.pc) = .ok i → mayRaise i = some r.code)

/-- R252, for either setting of `PC_ALIGN_STRICT`: the record of a halt names the fetch address; the fetched word but for the two fetch
faults; and a data address of 4096 or more exactly for `memoryOutOfBounds`.
Rests on the spec's own decisions D20, D24. -/
def Obligations.FaultRecordNamesAddressAndWord : Prop :=
  ∀ (strict : Bool) (units now : Nat) (key : Option Key) (s t : State) (r : FaultRecord),
    Running s → cycleWith strict units exec now key s = .next t → t.halted = some r →
    r.addr = s.pc ∧ t.redraw = false ∧
    ((r.code = .pcOutOfBounds ∨ r.code = .pcMisaligned) → r.word = none) ∧
    (r.code ≠ .pcOutOfBounds → r.code ≠ .pcMisaligned → r.word = some (s.mem.fetch s.pc)) ∧
    (r.code = .memoryOutOfBounds → ∃ a, r.dataAddr = some a ∧ 4096 ≤ a) ∧
    (r.code ≠ .memoryOutOfBounds → r.dataAddr = none)

/-- R251: the numbers of the fault codes.
Rests on the spec's own decision D24. -/
def Obligations.FaultCodesAreNumbered : Prop :=
  Fault.code .pcOutOfBounds = 1 ∧ Fault.code .pcMisaligned = 2 ∧ Fault.code .decodeFailure = 3 ∧
  Fault.code .stackUnderflow = 4 ∧ Fault.code .stackOverflow = 5 ∧ Fault.code .memoryOutOfBounds = 6

/-! ### Timers -/

/-- R259, R261: the timer update, for every time unit: where a full period has passed both timers fall by one, saturating at zero, and
the baseline becomes `now`; where not, time going backwards among it, nothing changes.
Rests on the spec's own decision D22. -/
def Obligations.TimerUpdateFollowsThePeriod : Prop :=
  ∀ (units now : Nat) (s : State),
    (s.lastTick ≤ now → units ≤ 60 * (now - s.lastTick) →
      (timerTick units now s).dt.toNat = s.dt.toNat - 1 ∧ (timerTick units now s).st.toNat = s.st.toNat - 1 ∧
      (timerTick units now s).lastTick = now ∧ OnlyChanges [.dt, .st, .lastTick] s (timerTick units now s)) ∧
    (now < s.lastTick → timerTick units now s = s) ∧
    (60 * (now - s.lastTick) < units → timerTick units now s = s)

/-- R27, R260: in a cycle that meets no fault, a timer that the instruction does not set keeps its value or falls by exactly one, and it falls
only where at least 1/60 s has passed since the last update, which becomes this cycle's time.
Rests on the spec's own decision D22. -/
def Obligations.TimersFallAtMostOncePerPeriod : Prop :=
  ∀ (s t : State) (now : Nat) (key : Option Key),
    nextEvent s = .cycle now key → Running s → step s = .next t → Running t →
    (t.lastTick = s.lastTick ∨
      (t.lastTick = now ∧ s.lastTick ≤ now ∧ Config.timeUnitsPerSecond ≤ 60 * (now - s.lastTick))) ∧
    ((∀ x, decodeWord (s.mem.fetch s.pc) ≠ .ok (.storeDelay x)) →
      t.dt = s.dt ∨ (t.dt.toNat + 1 = s.dt.toNat ∧ t.lastTick = now ∧ s.lastTick ≤ now ∧
        Config.timeUnitsPerSecond ≤ 60 * (now - s.lastTick))) ∧
    ((∀ x, decodeWord (s.mem.fetch s.pc) ≠ .ok (.storeSound x)) →
      t.st = s.st ∨ (t.st.toNat + 1 = s.st.toNat ∧ t.lastTick = now ∧ s.lastTick ≤ now ∧
        Config.timeUnitsPerSecond ≤ 60 * (now - s.lastTick)))

/-- R287: LoadDelay reads the delay timer after this cycle's decrement, and a value written by StoreDelay or StoreSound is not
decremented in the cycle that writes it.
Rests on the spec's own decision D22. -/
def Obligations.TimerUpdateRunsBeforeExecution : Prop :=
  ∀ (s : State) (now : Nat) (key : Option Key) (x : Reg),
    nextEvent s = .cycle now key → Running s → Fetchable Config.pcAlignStrict s.pc →
    (decodeWord (s.mem.fetch s.pc) = .ok (.loadDelay x) →
      ∃ t, step s = .next t ∧ t.getV x = (if s.lastTick ≤ now ∧ Config.timeUnitsPerSecond ≤ 60 * (now - s.lastTick)
        then BitVec.ofNat 8 (s.dt.toNat - 1) else s.dt)) ∧
    (decodeWord (s.mem.fetch s.pc) = .ok (.storeDelay x) → ∃ t, step s = .next t ∧ t.dt = s.getV x) ∧
    (decodeWord (s.mem.fetch s.pc) = .ok (.storeSound x) → ∃ t, step s = .next t ∧ t.st = s.getV x)

/-! ### Reset -/

/-- R38, R280, R281: a reset, in any state, leaves every element at its reset value: the font preload, the image's first 3584 bytes
from 0x200, 0x00 in every other byte, `prng_init(SEED)`, `T0`, and no halt.
Rests on the spec's own decisions D6, D7, D8, D9, D17, D20, D24, D26. -/
def Obligations.ResetLeavesTheResetValues : Prop :=
  ∀ (s : State) (seed t0 : Nat) (image : List Byte), nextEvent s = .reset seed t0 image →
    ∃ t, step s = .next t ∧ (∀ r : Reg, t.getV r = 0) ∧ t.pc = 0x200 ∧ t.index = 0 ∧ t.stack = [] ∧ t.dt = 0 ∧ t.st = 0 ∧
      (∀ (c r : Nat) (hc : c < 64) (hr : r < 32), t.disp[c][r] = false) ∧
      (∀ a < 4096, t.mem.read a =
        if a < 80 then Config.fontGlyphs a
        else if 0x200 ≤ a ∧ a - 0x200 < image.length then image.getD (a - 0x200) 0 else 0) ∧
      t.prng = Config.prngInit seed ∧ t.lastTick = t0 ∧ t.halted = none ∧ t.redraw = false

/-- R282: the first cycle after the reset of an empty image fetches 0x0000 at 0x200 and halts with DecodeFailure, redraw false.
Rests on the spec's own decisions D6, D8, D13 (0x0000 is unrecognized), D20, D24 (log entry 17). -/
def Obligations.EmptyImageHaltsInTheFirstCycle : Prop :=
  ∀ (s : State) (seed t0 : Nat), nextEvent s = .reset seed t0 [] →
    ∃ t, step s = .next t ∧ t.pc = 0x200 ∧
      ∀ now key, nextEvent t = .cycle now key → Halts (step t) ⟨.decodeFailure, 0x200, some 0x0000, none⟩

/-- MemoryCanonical and PcBounded hold of the reset state.
Rests on the spec's own decision D6. -/
def Obligations.InvariantsHoldAtReset : Prop :=
  MemoryCanonical State.reset ∧ PcBounded State.reset ∧ Running State.reset ∧ State.reset.pc = 0x200

/-! ### Invariants -/

/-- Every step keeps memory in its canonical form, so below address 4096; the form is the model's choice (log entry 14), the bound R29's. -/
def Obligations.StepKeepsMemoryCanonical : Prop :=
  ∀ s t : State, MemoryCanonical s → step s = .next t → MemoryCanonical t

/-- R24, R26: every step keeps the pc at most 0x1002 and every return address in 0x202 to 0x1000 while the CORE runs.
Rests on the spec's own decisions D3, D4. -/
def Obligations.StepKeepsPcBounded : Prop :=
  ∀ s t : State, PcBounded s → step s = .next t → PcBounded t

/-! ### All instructions -/

/-- R128, R258: every instruction, in every state, answers a next state. -/
def Obligations.EveryInstructionAnswersNext : Prop :=
  ∀ (i : Instr) (s : State), ∃ t, exec i s = .next t

/-- R21, R22, R25 to R29, R31: an instruction that meets no fault writes only the elements and registers the spec lets it write.
Rests on the spec's own decisions D16, D19. -/
def Obligations.InstructionsWriteOnlyTheirOwn : Prop :=
  ∀ (i : Instr) (s t : State), Running s → exec i s = .next t → Running t →
    OnlyChanges (mayWrite i) s t ∧ ∀ r, mayWriteReg i r = false → t.getV r = s.getV r

/-- R250, R252, R255: an instruction halts only with the one fault of its own; the record names the cycle's address and word.
Rests on the spec's own decisions D11, D23, D24. -/
def Obligations.InstructionsHaltOnlyWithTheirFault : Prop :=
  ∀ (i : Instr) (s t : State) (r : FaultRecord), Running s → exec i s = .next t → t.halted = some r →
    mayRaise i = some r.code ∧ r.addr = s.fetchAddr ∧ r.word = some s.fetchWord ∧
    (r.dataAddr.isSome = true ↔ r.code = .memoryOutOfBounds)

/-- R27: no instruction reads the sound timer. From two states that differ in it alone an instruction halts in both or in neither, with the
same record and the same redraw output; where it does not halt, the two next states differ in the sound timer alone. After a halt nothing
else is compared: R253 leaves it unspecified (log entry 1).
Rests on the spec's own decision D24. -/
def Obligations.NoInstructionReadsTheSoundTimer : Prop :=
  ∀ (i : Instr) (s t : State) (b : Byte), exec i s = .next t →
    ∃ u, exec i (s.setSt b) = .next u ∧ u.halted = t.halted ∧ u.redraw = t.redraw ∧ (Running t → u.setSt 0 = t.setSt 0)

/-! ### Control transfer -/

/-- R140.
Rests on the spec's own decisions D20, D24. -/
def Obligations.ReturnPopsOrHalts : Prop :=
  decodeWord 0x00EE = .ok .ret ∧
  ∀ s : State,
    (∀ top rest, s.stack = top :: rest →
      ∃ t, exec .ret s = .next t ∧ t.pc = top ∧ t.stack = rest ∧ OnlyChanges [.pc, .stack] s t) ∧
    (s.stack = [] → Halts (exec .ret s) ⟨.stackUnderflow, s.fetchAddr, some s.fetchWord, none⟩)

/-- R141: the target is absolute; it is checked at the next fetch only.
Rests on the spec's own decisions D4, D5. -/
def Obligations.JumpSetsThePc : Prop :=
  ∀ (nnn : Addr12) (strict : Bool) (s : State),
    decodeWord (0x1#4 ++ nnn) = .ok (.jump nnn) ∧
    ∃ t, exec (.jump nnn) s = .next t ∧ t.pc.toNat = nnn.toNat ∧ OnlyChanges [.pc] s t ∧
      (Fetchable strict t.pc ↔ 0x200 ≤ nnn.toNat ∧ nnn.toNat ≠ 0xFFF ∧ (strict = true → nnn.toNat % 2 = 0))

/-- R142: with the unbounded stack Call pushes the advanced pc and jumps; with a finite capacity a full stack halts and any other does as
the unbounded one.
Rests on the spec's own decisions D23, D24. -/
def Obligations.CallPushesAndJumps : Prop :=
  (∀ (nnn : Addr12) (s : State),
    decodeWord (0x2#4 ++ nnn) = .ok (.call nnn) ∧
    exec (.call nnn) s = .next (pushPcAndJump Config.stackCapacity (nnn.setWidth 16) s) ∧
    ∃ t, exec (.call nnn) s = .next t ∧ t.stack = s.pc :: s.stack ∧ t.pc.toNat = nnn.toNat ∧ OnlyChanges [.pc, .stack] s t) ∧
  (∀ (c : Nat) (target : Word) (s : State),
    (s.stack.length = c → Halts (.next (pushPcAndJump (some c) target s))
      ⟨.stackOverflow, s.fetchAddr, some s.fetchWord, none⟩) ∧
    (s.stack.length ≠ c → pushPcAndJump (some c) target s = pushPcAndJump none target s))

/-- R143, R144, with the skip of R130. -/
def Obligations.SkipsCompareWithTheImmediate : Prop :=
  ∀ (x : Reg) (kk : Byte) (s : State),
    decodeWord (0x3#4 ++ regBits x ++ kk) = .ok (.skipEqImm x kk) ∧ SkipsIff (.skipEqImm x kk) s (s.getV x = kk) ∧
    decodeWord (0x4#4 ++ regBits x ++ kk) = .ok (.skipNeqImm x kk) ∧ SkipsIff (.skipNeqImm x kk) s (s.getV x ≠ kk)

/-- R145, R146, with the skip of R130; a word of these groups with `n ≠ 0` is unrecognized.
Rests on the spec's own decision D13. -/
def Obligations.SkipsCompareTwoRegisters : Prop :=
  ∀ (x y : Reg) (n : Nibble) (s : State),
    decodeWord (0x5#4 ++ regBits x ++ regBits y ++ 0x0#4) = .ok (.skipEqReg x y) ∧
    SkipsIff (.skipEqReg x y) s (s.getV x = s.getV y) ∧
    decodeWord (0x9#4 ++ regBits x ++ regBits y ++ 0x0#4) = .ok (.skipNeqReg x y) ∧
    SkipsIff (.skipNeqReg x y) s (s.getV x ≠ s.getV y) ∧
    (n ≠ 0 → (∀ i, decodeWord (0x5#4 ++ regBits x ++ regBits y ++ n) ≠ .ok i) ∧
      ∀ i, decodeWord (0x9#4 ++ regBits x ++ regBits y ++ n) ≠ .ok i)

/-! ### ALU -/

/-- R162, R164. -/
def Obligations.LoadImmAndMoveSetTheRegister : Prop :=
  ∀ (x y : Reg) (kk : Byte) (s : State),
    decodeWord (0x6#4 ++ regBits x ++ kk) = .ok (.loadImm x kk) ∧ SetsRegister (.loadImm x kk) s x kk ∧
    decodeWord (0x8#4 ++ regBits x ++ regBits y ++ 0x0#4) = .ok (.move x y) ∧ SetsRegister (.move x y) s x (s.getV y)

/-- R163: the sum wraps modulo 256 and VF is not written as a flag.
Rests on the spec's own decision D16. -/
def Obligations.AddImmWrapsWithoutFlag : Prop :=
  ∀ (x : Reg) (kk : Byte) (s : State),
    decodeWord (0x7#4 ++ regBits x ++ kk) = .ok (.addImm x kk) ∧
    SetsRegister (.addImm x kk) s x (BitVec.ofNat 8 (((s.getV x).toNat + kk.toNat) % 256))

/-- R165, R166, R167: bitwise, and VF is not written as a flag.
Rests on the spec's own decision D16. -/
def Obligations.LogicWritesOnlyTheRegister : Prop :=
  ∀ (x y : Reg) (s : State),
    decodeWord (0x8#4 ++ regBits x ++ regBits y ++ 0x1#4) = .ok (.or x y) ∧ SetsRegister (.or x y) s x (s.getV x ||| s.getV y) ∧
    decodeWord (0x8#4 ++ regBits x ++ regBits y ++ 0x2#4) = .ok (.and x y) ∧ SetsRegister (.and x y) s x (s.getV x &&& s.getV y) ∧
    decodeWord (0x8#4 ++ regBits x ++ regBits y ++ 0x3#4) = .ok (.xor x y) ∧ SetsRegister (.xor x y) s x (s.getV x ^^^ s.getV y)

/-- R168, with the write order of R161.
Rests on the spec's own decision D15. -/
def Obligations.AddWritesSumAndCarry : Prop :=
  ∀ (x y : Reg) (s : State),
    decodeWord (0x8#4 ++ regBits x ++ regBits y ++ 0x4#4) = .ok (.add x y) ∧
    SetsWithFlag (.add x y) s x (BitVec.ofNat 8 (((s.getV x).toNat + (s.getV y).toNat) % 256))
      (if (s.getV x).toNat + (s.getV y).toNat > 255 then 1 else 0)

/-- R169, R170, with the write order of R161: SubForward is `x - y`, SubBackward `y - x`, modulo 256, flag 0 on a borrow and else 1.
Rests on the spec's own decision D15. -/
def Obligations.SubtractionsWriteDifferenceAndNoBorrow : Prop :=
  ∀ (x y : Reg) (s : State),
    decodeWord (0x8#4 ++ regBits x ++ regBits y ++ 0x5#4) = .ok (.subForward x y) ∧
    SetsWithFlag (.subForward x y) s x (BitVec.ofInt 8 ((s.getV x).toNat - (s.getV y).toNat : Int))
      (if (s.getV y).toNat > (s.getV x).toNat then 0 else 1) ∧
    decodeWord (0x8#4 ++ regBits x ++ regBits y ++ 0x7#4) = .ok (.subBackward x y) ∧
    SetsWithFlag (.subBackward x y) s x (BitVec.ofInt 8 ((s.getV y).toNat - (s.getV x).toNat : Int))
      (if (s.getV x).toNat > (s.getV y).toNat then 0 else 1)

/-- R171, R172: any `y` decodes to the shift of `V[x]`, whose result is halved or doubled modulo 256; VF is not written as a flag. -/
def Obligations.ShiftsIgnoreTheSecondOperandAndLeaveTheFlag : Prop :=
  ∀ (x y : Reg) (s : State),
    decodeWord (0x8#4 ++ regBits x ++ regBits y ++ 0x6#4) = .ok (.shiftRight x) ∧
    SetsRegister (.shiftRight x) s x (BitVec.ofNat 8 ((s.getV x).toNat / 2)) ∧
    decodeWord (0x8#4 ++ regBits x ++ regBits y ++ 0xE#4) = .ok (.shiftLeft x) ∧
    SetsRegister (.shiftLeft x) s x (BitVec.ofNat 8 (2 * (s.getV x).toNat % 256))

/-- R173, for whatever generator `PRNG` is: the next value of the stream masked with `kk`, and the stream advanced, `kk = 0` among it.
Rests on the spec's own decision D17. -/
def Obligations.RandomMasksTheNextStreamValue : Prop :=
  ∀ (x : Reg) (kk : Byte) (s : State),
    decodeWord (0xC#4 ++ regBits x ++ kk) = .ok (.random x kk) ∧
    ∃ t, exec (.random x kk) s = .next t ∧ t.getV x = (Config.prngNext s.prng).1 &&& kk ∧
      t.prng = (Config.prngNext s.prng).2 ∧ OnlyRegs [x] s t ∧ OnlyChanges [.v, .prng] s t

/-! ### Index register and memory -/

/-- R190. -/
def Obligations.LoadIndexSetsTheIndex : Prop :=
  ∀ (nnn : Addr12) (s : State),
    decodeWord (0xA#4 ++ nnn) = .ok (.loadIndex nnn) ∧
    ∃ t, exec (.loadIndex nnn) s = .next t ∧ t.index.toNat = nnn.toNat ∧ OnlyChanges [.index] s t

/-- R191: the 16-bit sum wraps, and VF is 1 iff it overflows 16 bits; with `x = 0xF` the old VF is the addend and VF then gets the flag. -/
def Obligations.AddToIndexWrapsAndFlagsOverflow : Prop :=
  ∀ (x : Reg) (s : State),
    decodeWord (0xF#4 ++ regBits x ++ 0x1E#8) = .ok (.addToIndex x) ∧
    ∃ t, exec (.addToIndex x) s = .next t ∧ t.index.toNat = (s.index.toNat + (s.getV x).toNat) % 65536 ∧
      t.getV VF = (if s.index.toNat + (s.getV x).toNat > 0xFFFF then 1 else 0) ∧
      OnlyRegs [VF] s t ∧ OnlyChanges [.v, .index] s t

/-- R192: the glyph address of the digit; `FONTCHAR_DIGIT` decides only for a register above 0xF.
Rests on the spec's own decisions D9, D10. -/
def Obligations.FontCharPointsAtTheGlyph : Prop :=
  ∀ (x : Reg) (s : State),
    decodeWord (0xF#4 ++ regBits x ++ 0x29#8) = .ok (.fontChar x) ∧
    ∃ t, exec (.fontChar x) s = .next t ∧ OnlyChanges [.index] s t ∧
      t.index.toNat = Config.fontBase + 5 * (match Config.fontDigit with
        | .lowNibble => (s.getV x).toNat % 16
        | .full => (s.getV x).toNat) ∧
      ((s.getV x).toNat ≤ 0xF → t.index.toNat = 5 * (s.getV x).toNat)

/-- R193: three digits at `I`, `I + 1`, `I + 2`, no other byte written; out of bounds the halt names the lowest bad address.
Rests on the spec's own decisions D11, D24. -/
def Obligations.StoreBCDWritesThreeDigits : Prop :=
  ∀ (x : Reg) (s : State), MemoryCanonical s →
    decodeWord (0xF#4 ++ regBits x ++ 0x33#8) = .ok (.storeBCD x) ∧
    (s.index.toNat + 2 < 4096 →
      ∃ t, exec (.storeBCD x) s = .next t ∧
        (t.mem.read s.index.toNat).toNat = (s.getV x).toNat / 100 ∧
        (t.mem.read (s.index.toNat + 1)).toNat = (s.getV x).toNat / 10 % 10 ∧
        (t.mem.read (s.index.toNat + 2)).toNat = (s.getV x).toNat % 10 ∧
        OnlyBytes s.index.toNat 3 s t ∧ OnlyChanges [.mem] s t) ∧
    (4096 ≤ s.index.toNat + 2 →
      Halts (exec (.storeBCD x) s) ⟨.memoryOutOfBounds, s.fetchAddr, some s.fetchWord, some (max s.index.toNat 4096)⟩)

/-- R194: `V0` to `V[x]` at `I` up, no other byte written and `I` unchanged; out of bounds the halt names the lowest bad address.
Rests on the spec's own decisions D11, D24. -/
def Obligations.StoreRangeWritesTheRegisters : Prop :=
  ∀ (x : Reg) (s : State), MemoryCanonical s →
    decodeWord (0xF#4 ++ regBits x ++ 0x55#8) = .ok (.storeRange x) ∧
    (s.index.toNat + x.val < 4096 →
      ∃ t, exec (.storeRange x) s = .next t ∧ (∀ r : Reg, r ≤ x → t.mem.read (s.index.toNat + r.val) = s.getV r) ∧
        OnlyBytes s.index.toNat (x.val + 1) s t ∧ OnlyChanges [.mem] s t) ∧
    (4096 ≤ s.index.toNat + x.val →
      Halts (exec (.storeRange x) s) ⟨.memoryOutOfBounds, s.fetchAddr, some s.fetchWord, some (max s.index.toNat 4096)⟩)

/-- R195: `V0` to `V[x]` from `I` up, the registers above `x` and `I` unchanged; out of bounds the halt names the lowest bad address.
Rests on the spec's own decisions D11, D24. -/
def Obligations.LoadRangeReadsTheRegisters : Prop :=
  ∀ (x : Reg) (s : State),
    decodeWord (0xF#4 ++ regBits x ++ 0x65#8) = .ok (.loadRange x) ∧
    (s.index.toNat + x.val < 4096 →
      ∃ t, exec (.loadRange x) s = .next t ∧ (∀ r : Reg, r ≤ x → t.getV r = s.mem.read (s.index.toNat + r.val)) ∧
        (∀ r : Reg, x < r → t.getV r = s.getV r) ∧ OnlyChanges [.v] s t) ∧
    (4096 ≤ s.index.toNat + x.val →
      Halts (exec (.loadRange x) s) ⟨.memoryOutOfBounds, s.fetchAddr, some s.fetchWord, some (max s.index.toNat 4096)⟩)

/-- R195's round trip: StoreRange, then any change of the registers, then LoadRange restores the registers exactly.
Rests on the spec's own decision D11. -/
def Obligations.StoreRangeThenLoadRangeRestores : Prop :=
  ∀ (x : Reg) (s : State), MemoryCanonical s → s.index.toNat + x.val < 4096 →
    ∃ t, exec (.storeRange x) s = .next t ∧
      ∀ v : RegFile, ∃ u, exec (.loadRange x) (t.setRegs v) = .next u ∧ ∀ r : Reg, r ≤ x → u.getV r = s.getV r

/-- R76, R286: the words that begin at a byte StoreRange or StoreBCD writes are fetched with the new bytes; the last of them ends in the byte
after the stored ones, which is unchanged. Each instruction stands under its own bound.
Rests on the spec's own decisions D1, D11. -/
def Obligations.StoredBytesAreFetched : Prop :=
  ∀ (x : Reg) (s : State), MemoryCanonical s →
    (s.index.toNat + x.val < 4096 → ∃ t, exec (.storeRange x) s = .next t ∧
      (∀ r : Reg, (h : r.val + 1 ≤ x.val) → t.mem.fetch (s.index + BitVec.ofNat 16 r.val) =
        wordOfBytes (s.getV r) (s.getV ⟨r.val + 1, by have := x.isLt; omega⟩)) ∧
      t.mem.fetch (s.index + BitVec.ofNat 16 x.val) = wordOfBytes (s.getV x) (s.mem.read (s.index.toNat + x.val + 1))) ∧
    (s.index.toNat + 2 < 4096 → ∃ t, exec (.storeBCD x) s = .next t ∧
      t.mem.fetch s.index =
        wordOfBytes (BitVec.ofNat 8 ((s.getV x).toNat / 100)) (BitVec.ofNat 8 ((s.getV x).toNat / 10 % 10)) ∧
      t.mem.fetch (s.index + 1) =
        wordOfBytes (BitVec.ofNat 8 ((s.getV x).toNat / 10 % 10)) (BitVec.ofNat 8 ((s.getV x).toNat % 10)) ∧
      t.mem.fetch (s.index + 2) =
        wordOfBytes (BitVec.ofNat 8 ((s.getV x).toNat % 10)) (s.mem.read (s.index.toNat + 3)))

/-! ### Display -/

/-- R211: every cell is off and the redraw output asserted.
Rests on the spec's own decision D20. -/
def Obligations.ClearScreenBlanksTheDisplay : Prop :=
  decodeWord 0x00E0 = .ok .clearScreen ∧
  ∀ s : State, ∃ t, exec .clearScreen s = .next t ∧
    (∀ (c r : Nat) (hc : c < 64) (hr : r < 32), t.disp[c][r] = false) ∧ t.redraw = true ∧ OnlyChanges [.disp, .redraw] s t

/-- R210, R212, R213: Draw toggles exactly the grid's cells under set sprite pixels, clipped at the edges, asserts redraw, and writes
VF only where `DRAW_COLLISION_VF` is true, 1 iff a lit cell was turned off; out of bounds the halt names the lowest bad address.
Rests on the spec's own decisions D11, D18, D19, D24. -/
def Obligations.DrawTogglesTheCellsUnderTheSprite : Prop :=
  ∀ (x y : Reg) (n : Nibble) (s : State),
    decodeWord (0xD#4 ++ regBits x ++ regBits y ++ n) = .ok (.draw x y n) ∧
    ((n.toNat = 0 ∨ s.index.toNat + n.toNat ≤ 4096) →
      ∃ t, exec (.draw x y n) s = .next t ∧
        (∀ (c r : Nat) (hc : c < 64) (hr : r < 32),
          (spriteCovers s x y n c r → t.disp[c][r] = !s.disp[c][r]) ∧
          (¬ spriteCovers s x y n c r → t.disp[c][r] = s.disp[c][r])) ∧
        t.redraw = true ∧
        ((∃ c r, ∃ (hc : c < 64) (hr : r < 32), spriteCovers s x y n c r ∧ s.disp[c][r] = true) →
          t.getV VF = if Config.drawCollisionVf then 1 else s.getV VF) ∧
        ((¬ ∃ c r, ∃ (hc : c < 64) (hr : r < 32), spriteCovers s x y n c r ∧ s.disp[c][r] = true) →
          t.getV VF = if Config.drawCollisionVf then 0 else s.getV VF) ∧
        OnlyRegs [VF] s t ∧ OnlyChanges [.v, .disp, .redraw] s t) ∧
    (n.toNat ≠ 0 → 4096 < s.index.toNat + n.toNat →
      Halts (exec (.draw x y n) s) ⟨.memoryOutOfBounds, s.fetchAddr, some s.fetchWord, some (max s.index.toNat 4096)⟩)

/-- R212: drawing the same sprite twice at the same anchor restores every cell, whatever the first Draw did to VF.
Rests on the spec's own decisions D11, D18. -/
def Obligations.DrawTwiceRestoresTheDisplay : Prop :=
  ∀ (x y : Reg) (n : Nibble) (s : State), (n.toNat = 0 ∨ s.index.toNat + n.toNat ≤ 4096) →
    ∃ t, exec (.draw x y n) s = .next t ∧
      ∀ s' : State, s'.disp = t.disp → s'.getV x = s.getV x → s'.getV y = s.getV y → s'.index = s.index →
        (∀ a, s'.mem.read a = s.mem.read a) → ∃ u, exec (.draw x y n) s' = .next u ∧ u.disp = s.disp

/-! ### Keys and timer access -/

/-- R231, R232, with the skip of R130: no key counts as "not equal", and no key equals a register above 0x0F.
Rests on the spec's own decision D21. -/
def Obligations.KeySkipsCompareWithTheSample : Prop :=
  ∀ (x : Reg) (s : State),
    decodeWord (0xE#4 ++ regBits x ++ 0x9E#8) = .ok (.skipKeyPressed x) ∧
    SkipsIff (.skipKeyPressed x) s (∃ k : Key, s.key = some k ∧ (s.getV x).toNat = k.toNat) ∧
    decodeWord (0xE#4 ++ regBits x ++ 0xA1#8) = .ok (.skipKeyNotPressed x) ∧
    SkipsIff (.skipKeyNotPressed x) s (¬ ∃ k : Key, s.key = some k ∧ (s.getV x).toNat = k.toNat)

/-- R233: with no key the pc is rewound by 2 and nothing else changes; with a key it is stored.
Rests on the spec's own decision D21. -/
def Obligations.WaitKeySpinsOrStores : Prop :=
  ∀ (x : Reg) (s : State),
    decodeWord (0xF#4 ++ regBits x ++ 0x0A#8) = .ok (.waitKey x) ∧
    (s.key = none → ∃ t, exec (.waitKey x) s = .next t ∧ t.pc = s.pc - 2 ∧ OnlyChanges [.pc] s t) ∧
    (∀ k : Key, s.key = some k →
      ∃ t, exec (.waitKey x) s = .next t ∧ (t.getV x).toNat = k.toNat ∧ OnlyRegs [x] s t ∧ OnlyChanges [.v] s t)

/-- R234, R235, R236: StoreDelay and StoreSound leave the timer baseline as it was. -/
def Obligations.TimerAccessMovesOneByte : Prop :=
  ∀ (x : Reg) (s : State),
    decodeWord (0xF#4 ++ regBits x ++ 0x07#8) = .ok (.loadDelay x) ∧ SetsRegister (.loadDelay x) s x s.dt ∧
    decodeWord (0xF#4 ++ regBits x ++ 0x15#8) = .ok (.storeDelay x) ∧
    (∃ t, exec (.storeDelay x) s = .next t ∧ t.dt = s.getV x ∧ OnlyChanges [.dt] s t) ∧
    decodeWord (0xF#4 ++ regBits x ++ 0x18#8) = .ok (.storeSound x) ∧
    (∃ t, exec (.storeSound x) s = .next t ∧ t.st = s.getV x ∧ OnlyChanges [.st] s t)

/-! ### The model's own conventions -/

/-- Log entry 15: with a word placed by `withFetchWord`, the next step of any state with canonical memory runs the instruction the
decoder reads from it, in the state a cycle prepares. -/
def Obligations.PlacedWordRunsNext : Prop :=
  ∀ (s : State) (w : Nat) (i : Instr), MemoryCanonical s → decodeTableWord 16 w = some i →
    ∃ now key, step (s.withFetchWord 16 w) =
      exec i (beginCycle Config.timeUnitsPerSecond now key (takeEvent (s.withFetchWord 16 w)))
end

