-- ==== Sys2Proof/Laws/Decode.lean ====
section
/-! SUPPORT. The fields of a word and of the encoding formats as numbers, and the bytes of a word. -/

namespace Sys2Proof

/-! ### Fields as numbers -/

theorem toNat_nib (w : Word) (index width : Nat) (valid : 0 < width ∧ index + width ≤ 4) :
    (nib w index width valid).toNat = w.toNat / 2 ^ (16 - 4 * (index + width)) % 2 ^ (4 * width) := by
  simp [nib, BitVec.extractLsb'_toNat, Nat.shiftRight_eq_div_pow]

theorem toNat_opField (w : Word) : (opField w).toNat = w.toNat / 4096 % 16 := toNat_nib w 0 1 _
theorem val_xField (w : Word) : (xField w).val = w.toNat / 256 % 16 := toNat_nib w 1 1 _
theorem val_yField (w : Word) : (yField w).val = w.toNat / 16 % 16 := toNat_nib w 2 1 _
theorem toNat_nField (w : Word) : (nField w).toNat = w.toNat % 16 := by
  have := toNat_nib w 3 1 (by decide)
  simpa [nField] using this
theorem toNat_kkField (w : Word) : (kkField w).toNat = w.toNat % 256 := by
  have := toNat_nib w 2 2 (by decide)
  simpa [kkField] using this
theorem toNat_nnnField (w : Word) : (nnnField w).toNat = w.toNat % 4096 := by
  have := toNat_nib w 1 3 (by decide)
  simpa [nnnField] using this

theorem toNat_append {m n : Nat} (p : BitVec m) (q : BitVec n) : (p ++ q).toNat = p.toNat * 2 ^ n + q.toNat := by
  rw [BitVec.toNat_append, ← Nat.shiftLeft_add_eq_or_of_lt q.isLt, Nat.shiftLeft_eq]

@[simp] theorem toNat_regBits (x : Reg) : (regBits x).toNat = x.val := rfl

section Formats
variable (op : BitVec 4) (x y : Reg) (n : Nibble) (kk : Byte) (nnn : Addr12)

theorem toNat_wordNNN : (wordNNN op nnn).toNat = op.toNat * 4096 + nnn.toNat := toNat_append op nnn

theorem toNat_wordXKK : (wordXKK op x kk).toNat = op.toNat * 4096 + x.val * 256 + kk.toNat := by
  have h1 : (wordXKK op x kk).toNat = (op ++ regBits x).toNat * 2 ^ 8 + kk.toNat :=
    toNat_append (m := 4 + 4) (n := 8) _ kk
  rw [h1, toNat_append, toNat_regBits]; ring

theorem toNat_wordXYN : (wordXYN op x y n).toNat = op.toNat * 4096 + x.val * 256 + y.val * 16 + n.toNat := by
  have h1 : (wordXYN op x y n).toNat = (op ++ regBits x ++ regBits y).toNat * 2 ^ 4 + n.toNat :=
    toNat_append (m := 4 + 4 + 4) (n := 4) _ n
  rw [h1, toNat_append, toNat_append, toNat_regBits, toNat_regBits]; ring

@[simp] theorem opField_wordNNN : opField (wordNNN op nnn) = op := by
  apply BitVec.eq_of_toNat_eq
  have := op.isLt; have := nnn.isLt
  rw [toNat_opField, toNat_wordNNN]; omega

@[simp] theorem nnnField_wordNNN : nnnField (wordNNN op nnn) = nnn := by
  apply BitVec.eq_of_toNat_eq
  have := nnn.isLt
  rw [toNat_nnnField, toNat_wordNNN]; omega

@[simp] theorem opField_wordXKK : opField (wordXKK op x kk) = op := by
  apply BitVec.eq_of_toNat_eq
  have := op.isLt; have := x.isLt; have := kk.isLt
  rw [toNat_opField, toNat_wordXKK]; omega

@[simp] theorem xField_wordXKK : xField (wordXKK op x kk) = x := by
  apply Fin.ext
  have := x.isLt; have := kk.isLt
  rw [val_xField, toNat_wordXKK]; omega

@[simp] theorem kkField_wordXKK : kkField (wordXKK op x kk) = kk := by
  apply BitVec.eq_of_toNat_eq
  have := kk.isLt
  rw [toNat_kkField, toNat_wordXKK]; omega

@[simp] theorem opField_wordXYN : opField (wordXYN op x y n) = op := by
  apply BitVec.eq_of_toNat_eq
  have := op.isLt; have := x.isLt; have := y.isLt; have := n.isLt
  rw [toNat_opField, toNat_wordXYN]; omega

@[simp] theorem xField_wordXYN : xField (wordXYN op x y n) = x := by
  apply Fin.ext
  have := x.isLt; have := y.isLt; have := n.isLt
  rw [val_xField, toNat_wordXYN]; omega

@[simp] theorem yField_wordXYN : yField (wordXYN op x y n) = y := by
  apply Fin.ext
  have := y.isLt; have := n.isLt
  rw [val_yField, toNat_wordXYN]; omega

@[simp] theorem nField_wordXYN : nField (wordXYN op x y n) = n := by
  apply BitVec.eq_of_toNat_eq
  have := n.isLt
  rw [toNat_nField, toNat_wordXYN]; omega

end Formats

/-! ### Masks -/

/-- A word is its four nibbles. -/
theorem word_ext {w w' : Word} (h0 : nib w 0 1 = nib w' 0 1) (h1 : nib w 1 1 = nib w' 1 1)
    (h2 : nib w 2 1 = nib w' 2 1) (h3 : nib w 3 1 = nib w' 3 1) : w = w' := by
  have e0 := congrArg BitVec.toNat h0
  have e1 := congrArg BitVec.toNat h1
  have e2 := congrArg BitVec.toNat h2
  have e3 := congrArg BitVec.toNat h3
  simp only [toNat_nib] at e0 e1 e2 e3
  have := w.isLt
  have := w'.isLt
  exact BitVec.eq_of_toNat_eq (by omega)

theorem nib_and (w m : Word) (index width : Nat) (valid : 0 < width ∧ index + width ≤ 4) :
    nib (w &&& m) index width valid = nib w index width valid &&& nib m index width valid := by
  simp [nib, BitVec.extractLsb'_and]

/-- R96: the mask of a row that fixes the group. -/
theorem and_F000_iff (w : Word) (op : BitVec 4) : w &&& 0xF000#16 = wordNNN op 0 ↔ opField w = op := by
  constructor
  · intro h
    have := congrArg (nib · 0 1) h
    simp only [nib_and] at this
    rw [show nib (wordNNN op 0) 0 1 = op from opField_wordNNN op 0, show nib 0xF000#16 0 1 = BitVec.allOnes 4 by decide,
      BitVec.and_allOnes] at this
    exact this
  · intro h
    subst h
    have z1 : nib (wordNNN (opField w) 0) 1 1 = 0 := BitVec.eq_of_toNat_eq (by
      rw [toNat_nib, toNat_wordNNN]; simp; omega)
    have z2 : nib (wordNNN (opField w) 0) 2 1 = 0 := BitVec.eq_of_toNat_eq (by
      rw [toNat_nib, toNat_wordNNN]; simp; omega)
    have z3 : nib (wordNNN (opField w) 0) 3 1 = 0 := BitVec.eq_of_toNat_eq (by
      rw [toNat_nib, toNat_wordNNN]; simp; omega)
    apply word_ext
    · rw [nib_and, show nib 0xF000#16 0 1 = BitVec.allOnes 4 by decide, BitVec.and_allOnes]
      exact (opField_wordNNN (opField w) 0).symm
    · rw [nib_and, z1, show nib 0xF000#16 1 1 = 0#(4 * 1) by decide, BitVec.and_zero]; rfl
    · rw [nib_and, z2, show nib 0xF000#16 2 1 = 0#(4 * 1) by decide, BitVec.and_zero]; rfl
    · rw [nib_and, z3, show nib 0xF000#16 3 1 = 0#(4 * 1) by decide, BitVec.and_zero]; rfl

/-- R96: the mask of a row that fixes the group and the low nibble. -/
theorem and_F00F_iff (w : Word) (op : BitVec 4) (n : Nibble) :
    w &&& 0xF00F#16 = wordXYN op 0 0 n ↔ opField w = op ∧ nField w = n := by
  constructor
  · intro h
    have h0 := congrArg (nib · 0 1) h
    have h3 := congrArg (nib · 3 1) h
    simp only [nib_and] at h0 h3
    rw [show nib (wordXYN op 0 0 n) 0 1 = op from opField_wordXYN op 0 0 n,
      show nib 0xF00F#16 0 1 = BitVec.allOnes 4 by decide, BitVec.and_allOnes] at h0
    rw [show nib (wordXYN op 0 0 n) 3 1 = n from nField_wordXYN op 0 0 n,
      show nib 0xF00F#16 3 1 = BitVec.allOnes 4 by decide, BitVec.and_allOnes] at h3
    exact ⟨h0, h3⟩
  · rintro ⟨rfl, rfl⟩
    apply word_ext
    · rw [nib_and, show nib 0xF00F#16 0 1 = BitVec.allOnes 4 by decide, BitVec.and_allOnes]
      exact (opField_wordXYN (opField w) 0 0 (nField w)).symm
    · rw [nib_and, show nib 0xF00F#16 1 1 = 0#(4 * 1) by decide, BitVec.and_zero]
      exact (BitVec.eq_of_toFin_eq (xField_wordXYN (opField w) 0 0 (nField w))).symm
    · rw [nib_and, show nib 0xF00F#16 2 1 = 0#(4 * 1) by decide, BitVec.and_zero]
      exact (BitVec.eq_of_toFin_eq (yField_wordXYN (opField w) 0 0 (nField w))).symm
    · rw [nib_and, show nib 0xF00F#16 3 1 = BitVec.allOnes 4 by decide, BitVec.and_allOnes]
      exact (nField_wordXYN (opField w) 0 0 (nField w)).symm

/-- R96: the mask of a row that fixes the group and the low byte. -/
theorem and_F0FF_iff (w : Word) (op : BitVec 4) (kk : Byte) :
    w &&& 0xF0FF#16 = wordXKK op 0 kk ↔ opField w = op ∧ kkField w = kk := by
  constructor
  · intro h
    have h0 := congrArg (nib · 0 1) h
    have h2 := congrArg (nib · 2 2) h
    simp only [nib_and] at h0 h2
    rw [show nib (wordXKK op 0 kk) 0 1 = op from opField_wordXKK op 0 kk,
      show nib 0xF0FF#16 0 1 = BitVec.allOnes 4 by decide, BitVec.and_allOnes] at h0
    rw [show nib (wordXKK op 0 kk) 2 2 = kk from kkField_wordXKK op 0 kk,
      show nib 0xF0FF#16 2 2 = BitVec.allOnes 8 by decide, BitVec.and_allOnes] at h2
    exact ⟨h0, h2⟩
  · rintro ⟨rfl, rfl⟩
    have hk := toNat_kkField w
    have low2 : nib (wordXKK (opField w) 0 (kkField w)) 2 1 = nib w 2 1 := BitVec.eq_of_toNat_eq (by
      rw [toNat_nib, toNat_nib, toNat_wordXKK, hk]; simp; omega)
    have low3 : nib (wordXKK (opField w) 0 (kkField w)) 3 1 = nib w 3 1 := BitVec.eq_of_toNat_eq (by
      rw [toNat_nib, toNat_nib, toNat_wordXKK, hk]; simp; omega)
    apply word_ext
    · rw [nib_and, show nib 0xF0FF#16 0 1 = BitVec.allOnes 4 by decide, BitVec.and_allOnes]
      exact (opField_wordXKK (opField w) 0 (kkField w)).symm
    · rw [nib_and, show nib 0xF0FF#16 1 1 = 0#(4 * 1) by decide, BitVec.and_zero]
      exact (BitVec.eq_of_toFin_eq (xField_wordXKK (opField w) 0 (kkField w))).symm
    · rw [nib_and, low2, show nib 0xF0FF#16 2 1 = BitVec.allOnes 4 by decide, BitVec.and_allOnes]
    · rw [nib_and, low3, show nib 0xF0FF#16 3 1 = BitVec.allOnes 4 by decide, BitVec.and_allOnes]

/-! ### A word from its fields -/

theorem wordNNN_fields (w : Word) : wordNNN (opField w) (nnnField w) = w := by
  apply BitVec.eq_of_toNat_eq; rw [toNat_wordNNN, toNat_opField, toNat_nnnField]; have := w.isLt; omega

theorem wordXKK_fields (w : Word) : wordXKK (opField w) (xField w) (kkField w) = w := by
  apply BitVec.eq_of_toNat_eq; rw [toNat_wordXKK, toNat_opField, toNat_kkField, val_xField]; have := w.isLt; omega

theorem wordXYN_fields (w : Word) : wordXYN (opField w) (xField w) (yField w) (nField w) = w := by
  apply BitVec.eq_of_toNat_eq
  rw [toNat_wordXYN, toNat_opField, toNat_nField, val_xField, val_yField]; have := w.isLt; omega

/-- R95: a shift's word with its ignored `y` field cleared. -/
theorem and_FF0F (w : Word) : w &&& 0xFF0F#16 = wordXYN (opField w) (xField w) 0 (nField w) := by
  apply word_ext
  · rw [nib_and, show nib 0xFF0F#16 0 1 = BitVec.allOnes 4 by decide, BitVec.and_allOnes]
    exact (opField_wordXYN (opField w) _ 0 (nField w)).symm
  · rw [nib_and, show nib 0xFF0F#16 1 1 = BitVec.allOnes 4 by decide, BitVec.and_allOnes]
    exact (BitVec.eq_of_toFin_eq (xField_wordXYN (opField w) (xField w) 0 (nField w))).symm
  · rw [nib_and, show nib 0xFF0F#16 2 1 = 0#(4 * 1) by decide, BitVec.and_zero]
    exact (BitVec.eq_of_toFin_eq (yField_wordXYN (opField w) (xField w) 0 (nField w))).symm
  · rw [nib_and, show nib 0xFF0F#16 3 1 = BitVec.allOnes 4 by decide, BitVec.and_allOnes]
    exact (nField_wordXYN (opField w) _ 0 (nField w)).symm

/-! ### Bytes -/

/-- R60: a word's two bytes make the word again. -/
theorem wordOfBytes_bytesOfWord (w : Word) : wordOfBytes (w.extractLsb' 8 8) (w.extractLsb' 0 8) = w := by
  apply BitVec.eq_of_toNat_eq
  have h := toNat_append (w.extractLsb' 8 8) (w.extractLsb' 0 8)
  have := w.isLt
  simp only [BitVec.extractLsb'_toNat, Nat.shiftRight_eq_div_pow] at h
  unfold wordOfBytes; omega

/-- Every instruction is well formed: its operand types hold only values that fit (R81, R84). -/
theorem wellFormed_instr (i : Instr) : i.wellFormed = true := by
  have reg (x : Reg) : Slot.fits .reg (.reg x) = true := decide_eq_true x.isLt
  have byte (b : Byte) : Slot.fits .byte (.imm b.toNat) = true := decide_eq_true b.isLt
  have nibble (n : Nibble) : Slot.fits .nibble (.imm n.toNat) = true := decide_eq_true n.isLt
  have addr (a : Addr12) : Slot.fits .addr (.imm a.toNat) = true := decide_eq_true a.isLt
  cases i <;> simp only [Instr.wellFormed, AsmTerm.wellFormed, Instr.toTerm, Tag.forms, slotsFit, List.any_cons,
    List.any_nil, reg, byte, nibble, addr] <;> rfl

end Sys2Proof
end

