-- ==== Sys2Proof/Laws/State.lean ====
section
/-! SUPPORT. One lemma per field per update of State, and the registers read after a write. -/

namespace Sys2Proof.Machine

/-! ### setRegs -/

section
variable (s : State) (v : RegFile)

@[simp] theorem State.setRegs_v : (s.setRegs v).v = v := rfl
@[simp] theorem State.setRegs_pc : (s.setRegs v).pc = s.pc := rfl
@[simp] theorem State.setRegs_index : (s.setRegs v).index = s.index := rfl
@[simp] theorem State.setRegs_stack : (s.setRegs v).stack = s.stack := rfl
@[simp] theorem State.setRegs_dt : (s.setRegs v).dt = s.dt := rfl
@[simp] theorem State.setRegs_st : (s.setRegs v).st = s.st := rfl
@[simp] theorem State.setRegs_disp : (s.setRegs v).disp = s.disp := rfl
@[simp] theorem State.setRegs_mem : (s.setRegs v).mem = s.mem := rfl
@[simp] theorem State.setRegs_prng : (s.setRegs v).prng = s.prng := rfl
@[simp] theorem State.setRegs_lastTick : (s.setRegs v).lastTick = s.lastTick := rfl
@[simp] theorem State.setRegs_halted : (s.setRegs v).halted = s.halted := rfl
@[simp] theorem State.setRegs_redraw : (s.setRegs v).redraw = s.redraw := rfl
@[simp] theorem State.setRegs_key : (s.setRegs v).key = s.key := rfl
@[simp] theorem State.setRegs_fetchAddr : (s.setRegs v).fetchAddr = s.fetchAddr := rfl
@[simp] theorem State.setRegs_fetchWord : (s.setRegs v).fetchWord = s.fetchWord := rfl
@[simp] theorem State.setRegs_events : (s.setRegs v).events = s.events := rfl
@[simp] theorem State.setRegs_strobes : (s.setRegs v).strobes = s.strobes := rfl

end

/-! ### setV -/

section
variable (s : State) (x : Reg) (b : Byte)

@[simp] theorem State.setV_v : (s.setV x b).v = s.v.set x b := rfl
@[simp] theorem State.setV_pc : (s.setV x b).pc = s.pc := rfl
@[simp] theorem State.setV_index : (s.setV x b).index = s.index := rfl
@[simp] theorem State.setV_stack : (s.setV x b).stack = s.stack := rfl
@[simp] theorem State.setV_dt : (s.setV x b).dt = s.dt := rfl
@[simp] theorem State.setV_st : (s.setV x b).st = s.st := rfl
@[simp] theorem State.setV_disp : (s.setV x b).disp = s.disp := rfl
@[simp] theorem State.setV_mem : (s.setV x b).mem = s.mem := rfl
@[simp] theorem State.setV_prng : (s.setV x b).prng = s.prng := rfl
@[simp] theorem State.setV_lastTick : (s.setV x b).lastTick = s.lastTick := rfl
@[simp] theorem State.setV_halted : (s.setV x b).halted = s.halted := rfl
@[simp] theorem State.setV_redraw : (s.setV x b).redraw = s.redraw := rfl
@[simp] theorem State.setV_key : (s.setV x b).key = s.key := rfl
@[simp] theorem State.setV_fetchAddr : (s.setV x b).fetchAddr = s.fetchAddr := rfl
@[simp] theorem State.setV_fetchWord : (s.setV x b).fetchWord = s.fetchWord := rfl
@[simp] theorem State.setV_events : (s.setV x b).events = s.events := rfl
@[simp] theorem State.setV_strobes : (s.setV x b).strobes = s.strobes := rfl

end

/-! ### setPc -/

section
variable (s : State) (a : Word)

@[simp] theorem State.setPc_v : (s.setPc a).v = s.v := rfl
@[simp] theorem State.setPc_pc : (s.setPc a).pc = a := rfl
@[simp] theorem State.setPc_index : (s.setPc a).index = s.index := rfl
@[simp] theorem State.setPc_stack : (s.setPc a).stack = s.stack := rfl
@[simp] theorem State.setPc_dt : (s.setPc a).dt = s.dt := rfl
@[simp] theorem State.setPc_st : (s.setPc a).st = s.st := rfl
@[simp] theorem State.setPc_disp : (s.setPc a).disp = s.disp := rfl
@[simp] theorem State.setPc_mem : (s.setPc a).mem = s.mem := rfl
@[simp] theorem State.setPc_prng : (s.setPc a).prng = s.prng := rfl
@[simp] theorem State.setPc_lastTick : (s.setPc a).lastTick = s.lastTick := rfl
@[simp] theorem State.setPc_halted : (s.setPc a).halted = s.halted := rfl
@[simp] theorem State.setPc_redraw : (s.setPc a).redraw = s.redraw := rfl
@[simp] theorem State.setPc_key : (s.setPc a).key = s.key := rfl
@[simp] theorem State.setPc_fetchAddr : (s.setPc a).fetchAddr = s.fetchAddr := rfl
@[simp] theorem State.setPc_fetchWord : (s.setPc a).fetchWord = s.fetchWord := rfl
@[simp] theorem State.setPc_events : (s.setPc a).events = s.events := rfl
@[simp] theorem State.setPc_strobes : (s.setPc a).strobes = s.strobes := rfl

end

/-! ### setIndex -/

section
variable (s : State) (a : Word)

@[simp] theorem State.setIndex_v : (s.setIndex a).v = s.v := rfl
@[simp] theorem State.setIndex_pc : (s.setIndex a).pc = s.pc := rfl
@[simp] theorem State.setIndex_index : (s.setIndex a).index = a := rfl
@[simp] theorem State.setIndex_stack : (s.setIndex a).stack = s.stack := rfl
@[simp] theorem State.setIndex_dt : (s.setIndex a).dt = s.dt := rfl
@[simp] theorem State.setIndex_st : (s.setIndex a).st = s.st := rfl
@[simp] theorem State.setIndex_disp : (s.setIndex a).disp = s.disp := rfl
@[simp] theorem State.setIndex_mem : (s.setIndex a).mem = s.mem := rfl
@[simp] theorem State.setIndex_prng : (s.setIndex a).prng = s.prng := rfl
@[simp] theorem State.setIndex_lastTick : (s.setIndex a).lastTick = s.lastTick := rfl
@[simp] theorem State.setIndex_halted : (s.setIndex a).halted = s.halted := rfl
@[simp] theorem State.setIndex_redraw : (s.setIndex a).redraw = s.redraw := rfl
@[simp] theorem State.setIndex_key : (s.setIndex a).key = s.key := rfl
@[simp] theorem State.setIndex_fetchAddr : (s.setIndex a).fetchAddr = s.fetchAddr := rfl
@[simp] theorem State.setIndex_fetchWord : (s.setIndex a).fetchWord = s.fetchWord := rfl
@[simp] theorem State.setIndex_events : (s.setIndex a).events = s.events := rfl
@[simp] theorem State.setIndex_strobes : (s.setIndex a).strobes = s.strobes := rfl

end

/-! ### setDt -/

section
variable (s : State) (b : Byte)

@[simp] theorem State.setDt_v : (s.setDt b).v = s.v := rfl
@[simp] theorem State.setDt_pc : (s.setDt b).pc = s.pc := rfl
@[simp] theorem State.setDt_index : (s.setDt b).index = s.index := rfl
@[simp] theorem State.setDt_stack : (s.setDt b).stack = s.stack := rfl
@[simp] theorem State.setDt_dt : (s.setDt b).dt = b := rfl
@[simp] theorem State.setDt_st : (s.setDt b).st = s.st := rfl
@[simp] theorem State.setDt_disp : (s.setDt b).disp = s.disp := rfl
@[simp] theorem State.setDt_mem : (s.setDt b).mem = s.mem := rfl
@[simp] theorem State.setDt_prng : (s.setDt b).prng = s.prng := rfl
@[simp] theorem State.setDt_lastTick : (s.setDt b).lastTick = s.lastTick := rfl
@[simp] theorem State.setDt_halted : (s.setDt b).halted = s.halted := rfl
@[simp] theorem State.setDt_redraw : (s.setDt b).redraw = s.redraw := rfl
@[simp] theorem State.setDt_key : (s.setDt b).key = s.key := rfl
@[simp] theorem State.setDt_fetchAddr : (s.setDt b).fetchAddr = s.fetchAddr := rfl
@[simp] theorem State.setDt_fetchWord : (s.setDt b).fetchWord = s.fetchWord := rfl
@[simp] theorem State.setDt_events : (s.setDt b).events = s.events := rfl
@[simp] theorem State.setDt_strobes : (s.setDt b).strobes = s.strobes := rfl

end

/-! ### setSt -/

section
variable (s : State) (b : Byte)

@[simp] theorem State.setSt_v : (s.setSt b).v = s.v := rfl
@[simp] theorem State.setSt_pc : (s.setSt b).pc = s.pc := rfl
@[simp] theorem State.setSt_index : (s.setSt b).index = s.index := rfl
@[simp] theorem State.setSt_stack : (s.setSt b).stack = s.stack := rfl
@[simp] theorem State.setSt_dt : (s.setSt b).dt = s.dt := rfl
@[simp] theorem State.setSt_st : (s.setSt b).st = b := rfl
@[simp] theorem State.setSt_disp : (s.setSt b).disp = s.disp := rfl
@[simp] theorem State.setSt_mem : (s.setSt b).mem = s.mem := rfl
@[simp] theorem State.setSt_prng : (s.setSt b).prng = s.prng := rfl
@[simp] theorem State.setSt_lastTick : (s.setSt b).lastTick = s.lastTick := rfl
@[simp] theorem State.setSt_halted : (s.setSt b).halted = s.halted := rfl
@[simp] theorem State.setSt_redraw : (s.setSt b).redraw = s.redraw := rfl
@[simp] theorem State.setSt_key : (s.setSt b).key = s.key := rfl
@[simp] theorem State.setSt_fetchAddr : (s.setSt b).fetchAddr = s.fetchAddr := rfl
@[simp] theorem State.setSt_fetchWord : (s.setSt b).fetchWord = s.fetchWord := rfl
@[simp] theorem State.setSt_events : (s.setSt b).events = s.events := rfl
@[simp] theorem State.setSt_strobes : (s.setSt b).strobes = s.strobes := rfl

end

/-! ### present -/

section
variable (s : State) (d : Display)

@[simp] theorem State.present_v : (s.present d).v = s.v := rfl
@[simp] theorem State.present_pc : (s.present d).pc = s.pc := rfl
@[simp] theorem State.present_index : (s.present d).index = s.index := rfl
@[simp] theorem State.present_stack : (s.present d).stack = s.stack := rfl
@[simp] theorem State.present_dt : (s.present d).dt = s.dt := rfl
@[simp] theorem State.present_st : (s.present d).st = s.st := rfl
@[simp] theorem State.present_disp : (s.present d).disp = d := rfl
@[simp] theorem State.present_mem : (s.present d).mem = s.mem := rfl
@[simp] theorem State.present_prng : (s.present d).prng = s.prng := rfl
@[simp] theorem State.present_lastTick : (s.present d).lastTick = s.lastTick := rfl
@[simp] theorem State.present_halted : (s.present d).halted = s.halted := rfl
@[simp] theorem State.present_redraw : (s.present d).redraw = true := rfl
@[simp] theorem State.present_key : (s.present d).key = s.key := rfl
@[simp] theorem State.present_fetchAddr : (s.present d).fetchAddr = s.fetchAddr := rfl
@[simp] theorem State.present_fetchWord : (s.present d).fetchWord = s.fetchWord := rfl
@[simp] theorem State.present_events : (s.present d).events = s.events := rfl
@[simp] theorem State.present_strobes : (s.present d).strobes = s.strobes := rfl

end

/-! ### setMem -/

section
variable (s : State) (m : Memory)

@[simp] theorem State.setMem_v : (s.setMem m).v = s.v := rfl
@[simp] theorem State.setMem_pc : (s.setMem m).pc = s.pc := rfl
@[simp] theorem State.setMem_index : (s.setMem m).index = s.index := rfl
@[simp] theorem State.setMem_stack : (s.setMem m).stack = s.stack := rfl
@[simp] theorem State.setMem_dt : (s.setMem m).dt = s.dt := rfl
@[simp] theorem State.setMem_st : (s.setMem m).st = s.st := rfl
@[simp] theorem State.setMem_disp : (s.setMem m).disp = s.disp := rfl
@[simp] theorem State.setMem_mem : (s.setMem m).mem = m := rfl
@[simp] theorem State.setMem_prng : (s.setMem m).prng = s.prng := rfl
@[simp] theorem State.setMem_lastTick : (s.setMem m).lastTick = s.lastTick := rfl
@[simp] theorem State.setMem_halted : (s.setMem m).halted = s.halted := rfl
@[simp] theorem State.setMem_redraw : (s.setMem m).redraw = s.redraw := rfl
@[simp] theorem State.setMem_key : (s.setMem m).key = s.key := rfl
@[simp] theorem State.setMem_fetchAddr : (s.setMem m).fetchAddr = s.fetchAddr := rfl
@[simp] theorem State.setMem_fetchWord : (s.setMem m).fetchWord = s.fetchWord := rfl
@[simp] theorem State.setMem_events : (s.setMem m).events = s.events := rfl
@[simp] theorem State.setMem_strobes : (s.setMem m).strobes = s.strobes := rfl

end

/-! ### setPrng -/

section
variable (s : State) (p : Nat)

@[simp] theorem State.setPrng_v : (s.setPrng p).v = s.v := rfl
@[simp] theorem State.setPrng_pc : (s.setPrng p).pc = s.pc := rfl
@[simp] theorem State.setPrng_index : (s.setPrng p).index = s.index := rfl
@[simp] theorem State.setPrng_stack : (s.setPrng p).stack = s.stack := rfl
@[simp] theorem State.setPrng_dt : (s.setPrng p).dt = s.dt := rfl
@[simp] theorem State.setPrng_st : (s.setPrng p).st = s.st := rfl
@[simp] theorem State.setPrng_disp : (s.setPrng p).disp = s.disp := rfl
@[simp] theorem State.setPrng_mem : (s.setPrng p).mem = s.mem := rfl
@[simp] theorem State.setPrng_prng : (s.setPrng p).prng = p := rfl
@[simp] theorem State.setPrng_lastTick : (s.setPrng p).lastTick = s.lastTick := rfl
@[simp] theorem State.setPrng_halted : (s.setPrng p).halted = s.halted := rfl
@[simp] theorem State.setPrng_redraw : (s.setPrng p).redraw = s.redraw := rfl
@[simp] theorem State.setPrng_key : (s.setPrng p).key = s.key := rfl
@[simp] theorem State.setPrng_fetchAddr : (s.setPrng p).fetchAddr = s.fetchAddr := rfl
@[simp] theorem State.setPrng_fetchWord : (s.setPrng p).fetchWord = s.fetchWord := rfl
@[simp] theorem State.setPrng_events : (s.setPrng p).events = s.events := rfl
@[simp] theorem State.setPrng_strobes : (s.setPrng p).strobes = s.strobes := rfl

end

/-! ### setStack -/

section
variable (s : State) (l : List Word)

@[simp] theorem State.setStack_v : (s.setStack l).v = s.v := rfl
@[simp] theorem State.setStack_pc : (s.setStack l).pc = s.pc := rfl
@[simp] theorem State.setStack_index : (s.setStack l).index = s.index := rfl
@[simp] theorem State.setStack_stack : (s.setStack l).stack = l := rfl
@[simp] theorem State.setStack_dt : (s.setStack l).dt = s.dt := rfl
@[simp] theorem State.setStack_st : (s.setStack l).st = s.st := rfl
@[simp] theorem State.setStack_disp : (s.setStack l).disp = s.disp := rfl
@[simp] theorem State.setStack_mem : (s.setStack l).mem = s.mem := rfl
@[simp] theorem State.setStack_prng : (s.setStack l).prng = s.prng := rfl
@[simp] theorem State.setStack_lastTick : (s.setStack l).lastTick = s.lastTick := rfl
@[simp] theorem State.setStack_halted : (s.setStack l).halted = s.halted := rfl
@[simp] theorem State.setStack_redraw : (s.setStack l).redraw = s.redraw := rfl
@[simp] theorem State.setStack_key : (s.setStack l).key = s.key := rfl
@[simp] theorem State.setStack_fetchAddr : (s.setStack l).fetchAddr = s.fetchAddr := rfl
@[simp] theorem State.setStack_fetchWord : (s.setStack l).fetchWord = s.fetchWord := rfl
@[simp] theorem State.setStack_events : (s.setStack l).events = s.events := rfl
@[simp] theorem State.setStack_strobes : (s.setStack l).strobes = s.strobes := rfl

end

/-! ### Registers -/

@[simp] theorem getV_setV_self (s : State) (x : Reg) (b : Byte) : (s.setV x b).getV x = b := by
  simp [State.getV]

theorem getV_setV_ne (s : State) {x r : Reg} (b : Byte) (h : r ≠ x) : (s.setV x b).getV r = s.getV r := by
  have : x.val ≠ r.val := fun e => h (Fin.ext e.symm)
  simp [State.getV, Vector.getElem_set_ne, this]

theorem getV_setV (s : State) (x r : Reg) (b : Byte) :
    (s.setV x b).getV r = if r = x then b else s.getV r := by
  split
  · next h => subst h; exact getV_setV_self s r b
  · next h => exact getV_setV_ne s b h

/-- A register is read from the register file alone. -/
theorem getV_congr {s t : State} (h : t.v = s.v) (r : Reg) : t.getV r = s.getV r := by
  simp [State.getV, h]

end Sys2Proof.Machine
end

