-- ==== Sys2Proof/Laws/Memory.lean ====
section
/-! SUPPORT. Memory: every operation keeps the canonical form, a read gives the latest write, and the bounds check of a transfer. -/

namespace Sys2Proof.Machine

/-! ### The canonical form -/

theorem Memory.wfFrom_cons {low a : Nat} {b : Byte} {rest : Memory} :
    Memory.wfFrom low ((a, b) :: rest) = true ↔
      low ≤ a ∧ a < Config.memSize ∧ b ≠ Memory.initial a ∧ Memory.wfFrom (a + 1) rest = true := by
  simp [Memory.wfFrom, and_assoc]

theorem Memory.wfFrom_mono {low low' : Nat} (h : low' ≤ low) {m : Memory} (hm : Memory.wfFrom low m = true) :
    Memory.wfFrom low' m = true := by
  cases m with
  | nil => rfl
  | cons c rest =>
    obtain ⟨h1, h2⟩ := Memory.wfFrom_cons.mp hm
    exact Memory.wfFrom_cons.mpr ⟨h.trans h1, h2⟩

theorem Memory.wfFrom_consCell {low a : Nat} {b : Byte} {rest : Memory} (hlow : low ≤ a) (ha : a < Config.memSize)
    (hrest : Memory.wfFrom (a + 1) rest = true) : Memory.wfFrom low (Memory.consCell a b rest) = true := by
  unfold Memory.consCell
  split
  · exact Memory.wfFrom_mono (by omega) hrest
  · next h => exact Memory.wfFrom_cons.mpr ⟨hlow, ha, h, hrest⟩

theorem Memory.wfFrom_write {low a : Nat} {b : Byte} {m : Memory} (hlow : low ≤ a) (ha : a < Config.memSize)
    (hm : Memory.wfFrom low m = true) : Memory.wfFrom low (m.write a b) = true := by
  induction m generalizing low with
  | nil => exact Memory.wfFrom_consCell hlow ha rfl
  | cons c rest ih =>
    obtain ⟨a', b'⟩ := c
    obtain ⟨h1, h2, h3, h4⟩ := Memory.wfFrom_cons.mp hm
    unfold Memory.write
    split
    · next h => exact Memory.wfFrom_consCell hlow ha (Memory.wfFrom_cons.mpr ⟨h, h2, h3, h4⟩)
    · split
      · next h => subst h; exact Memory.wfFrom_consCell hlow ha h4
      · exact Memory.wfFrom_cons.mpr ⟨h1, h2, h3, ih (by omega) h4⟩

/-- A write in bounds keeps the canonical form. -/
theorem Memory.wf_write {m : Memory} (hm : m.wf = true) {a : Nat} (ha : a < Config.memSize) (b : Byte) :
    (m.write a b).wf = true := Memory.wfFrom_write (Nat.zero_le a) ha hm

theorem Memory.wf_writeBytes {m : Memory} (hm : m.wf = true) {a : Nat} (bs : List Byte)
    (h : a + bs.length ≤ Config.memSize) : (m.writeBytes a bs).wf = true := by
  induction bs generalizing m a with
  | nil => exact hm
  | cons b bs ih =>
    simp only [List.length_cons] at h
    exact ih (Memory.wf_write hm (by omega) b) (by omega)

/-- Any list of cells is brought into the canonical form. -/
theorem Memory.wf_ofCells (cells : List Host.Cell) : (Memory.ofCells cells).wf = true := by
  unfold Memory.ofCells
  suffices ∀ m : Memory, m.wf = true →
      (cells.foldl (fun m c => if c.1 < Config.memSize then m.write c.1 c.2 else m) m).wf = true from this [] rfl
  induction cells with
  | nil => exact fun m hm => hm
  | cons c cells ih =>
    intro m hm
    refine ih _ ?_
    beta_reduce
    split
    · next h => exact Memory.wf_write hm h c.2
    · exact hm

/-- Loading an image keeps the canonical form (R281). -/
theorem wf_loadImage {m : Memory} (hm : m.wf = true) (image : List Byte) : (loadImage m image).wf = true := by
  refine Memory.wf_writeBytes hm _ ?_
  simp only [List.length_take, Config.programBase, Config.programSize, Config.memSize]
  omega

/-! ### Reads after writes -/

theorem Memory.find_of_wfFrom {low a : Nat} {m : Memory} (hm : Memory.wfFrom low m = true) (h : a < low) :
    m.find a = none := by
  induction m generalizing low with
  | nil => rfl
  | cons c rest ih =>
    obtain ⟨h1, _, _, h4⟩ := Memory.wfFrom_cons.mp hm
    have : c.1 ≠ a := by omega
    simp only [Memory.find, this, if_false]
    exact ih h4 (by omega)

theorem Memory.read_cons (a' a : Nat) (b : Byte) (rest : Memory) :
    Memory.read ((a', b) :: rest) a = if a' = a then b else rest.read a := by
  simp only [Memory.read, Memory.find]
  split <;> rfl

theorem Memory.read_consCell {low : Nat} (a' a : Nat) (b : Byte) {rest : Memory} (hrest : Memory.wfFrom low rest = true)
    (h : a' < low) : (Memory.consCell a' b rest).read a = if a' = a then b else rest.read a := by
  unfold Memory.consCell
  split
  · next hb =>
    split
    · next e => subst e; simp [Memory.read, Memory.find_of_wfFrom hrest h, hb]
    · rfl
  · exact Memory.read_cons a' a b rest

theorem Memory.read_writeFrom {low : Nat} {m : Memory} (hm : Memory.wfFrom low m = true) (a a' : Nat) (b : Byte) :
    (m.write a b).read a' = if a' = a then b else m.read a' := by
  induction m generalizing low with
  | nil =>
    rw [Memory.write, Memory.read_consCell (low := a + 1) a a' b rfl (by omega)]
    simp only [eq_comm]
  | cons c rest ih =>
    obtain ⟨c, d⟩ := c
    obtain ⟨h1, h2, h3, h4⟩ := Memory.wfFrom_cons.mp hm
    unfold Memory.write
    split
    · next h =>
      rw [Memory.read_consCell (low := a + 1) a a' b (Memory.wfFrom_cons.mpr ⟨h, h2, h3, h4⟩) (by omega)]
      simp only [eq_comm]
    · split
      · next h =>
        subst h
        rw [Memory.read_consCell (low := a + 1) a a' b h4 (by omega), Memory.read_cons]
        by_cases e : a' = a
        · simp [e]
        · simp [e, Ne.symm e]
      · next h1 h2 =>
        rw [Memory.read_cons, ih h4, Memory.read_cons]
        by_cases e : c = a'
        · subst e; simp [Ne.symm h2]
        · simp [e]

/-- R73: a read gives the latest write to its address, and a write leaves every other address alone. -/
theorem Memory.read_write {m : Memory} (hm : m.wf = true) (a a' : Nat) (b : Byte) :
    (m.write a b).read a' = if a' = a then b else m.read a' := Memory.read_writeFrom hm a a' b

/-- The bytes of a transfer are read back, and every other address is left alone. -/
theorem Memory.read_writeBytes {m : Memory} (hm : m.wf = true) (a : Nat) (bs : List Byte)
    (hb : a + bs.length ≤ Config.memSize) (a' : Nat) :
    (m.writeBytes a bs).read a' = if a ≤ a' ∧ a' < a + bs.length then bs.getD (a' - a) 0 else m.read a' := by
  induction bs generalizing m a with
  | nil => simp [Memory.writeBytes, show ¬ (a ≤ a' ∧ a' < a) by omega]
  | cons b bs ih =>
    simp only [List.length_cons] at hb
    rw [Memory.writeBytes, ih (Memory.wf_write hm (by omega) b) (a + 1) (by omega), Memory.read_write hm]
    by_cases h1 : a' = a
    · subst h1; simp
    · by_cases h2 : a + 1 ≤ a' ∧ a' < a + 1 + bs.length
      · have h3 : a ≤ a' ∧ a' < a + (bs.length + 1) := by omega
        obtain ⟨k, hk⟩ : ∃ k, a' - a = k + 1 := ⟨a' - a - 1, by omega⟩
        have hk' : a' - (a + 1) = k := by omega
        simp [h2, h3, hk, hk']
      · have h3 : ¬ (a ≤ a' ∧ a' < a + (bs.length + 1)) := by omega
        rw [if_neg h2, if_neg h1, List.length_cons, if_neg h3]

/-- An unlisted address reads as the reset contents (R38). -/
@[simp] theorem Memory.read_nil (a : Nat) : Memory.read [] a = Memory.initial a := rfl

/-- The font preload (R38, D9). -/
theorem Memory.initial_font {a : Nat} (h : a < 80) : Memory.initial a = Config.fontGlyphs a := by
  unfold Memory.initial
  exact if_pos ⟨Nat.zero_le a, by simp only [Config.fontBase, Config.fontSize]; omega⟩

/-- Every byte outside the font preload is 0x00 at reset (R38, D8). -/
theorem Memory.initial_zero {a : Nat} (h : 80 ≤ a) : Memory.initial a = 0 := by
  unfold Memory.initial
  exact if_neg fun h' => by simp only [Config.fontBase, Config.fontSize] at h'; omega

theorem Memory.readBytes_length (m : Memory) (a n : Nat) : (m.readBytes a n).length = n := by
  induction n generalizing a with
  | zero => rfl
  | succ n ih => simp [Memory.readBytes, ih]

theorem Memory.readBytes_getD (m : Memory) (a n k : Nat) (hk : k < n) : (m.readBytes a n).getD k 0 = m.read (a + k) := by
  induction n generalizing a k with
  | zero => omega
  | succ n ih =>
    cases k with
    | zero => simp [Memory.readBytes]
    | succ k =>
      have := ih (a + 1) k (by omega)
      simp only [Memory.readBytes, List.getD_cons_succ, this]
      congr 1; omega

/-! ### The bounds check -/

/-- R69: a transfer passes the check iff all of its addresses are below 4096. -/
theorem firstOutOfBounds_eq_none {a n : Nat} : firstOutOfBounds a n = none ↔ ∀ k < n, a + k < Config.memSize := by
  unfold firstOutOfBounds
  split
  · next h => subst h; simp
  · next hn =>
    split
    · next h =>
      simp only [reduceCtorEq, false_iff, not_forall]
      exact ⟨n - 1, by omega, by omega⟩
    · next h => simp only [true_iff]; intro k hk; omega

/-- R69: where the check fails it names the lowest of the transfer's addresses that is 4096 or more. -/
theorem firstOutOfBounds_eq_some {a n bad : Nat} (h : firstOutOfBounds a n = some bad) :
    Config.memSize ≤ bad ∧ a ≤ bad ∧ bad < a + n ∧ ∀ k, a + k < bad → a + k < Config.memSize := by
  unfold firstOutOfBounds at h
  split at h
  · cases h
  · split at h
    · cases h
      refine ⟨by omega, by omega, by omega, fun k hk => by omega⟩
    · cases h

end Sys2Proof.Machine
end

