-- ==== Sys2Proof/Laws/Ops.lean ====
section
/-! SUPPORT. One lemma per shared operation: everything it can do, for the proofs to cite instead of unfolding it. -/

namespace Sys2Proof.Machine

/-! ### The fatal halt -/

section
variable (code : Fault) (word : Option Word) (dataAddr : Option Nat) (s : State)

@[simp] theorem raiseFatal_halted : (raiseFatal code word dataAddr s).halted = some ⟨code, s.fetchAddr, word, dataAddr⟩ := rfl
@[simp] theorem raiseFatal_redraw : (raiseFatal code word dataAddr s).redraw = false := rfl
@[simp] theorem raiseFatal_events : (raiseFatal code word dataAddr s).events = s.events := rfl
@[simp] theorem raiseFatal_strobes : (raiseFatal code word dataAddr s).strobes = s.strobes := rfl

/-- A fatal halt leaves memory canonical, whatever it holds. -/
theorem raiseFatal_wf : (raiseFatal code word dataAddr s).mem.wf = true := Memory.wf_ofCells _

theorem raiseFatal_halts : Halts (.next (raiseFatal code word dataAddr s)) ⟨code, s.fetchAddr, word, dataAddr⟩ :=
  ⟨_, rfl, rfl, rfl⟩

end

/-! ### Transfers -/

theorem withSpan_inBounds {a n : Nat} (h : ∀ k < n, a + k < Config.memSize) (s done : State) :
    withSpan a n s done = done := by
  unfold withSpan
  rw [firstOutOfBounds_eq_none.mpr h]

theorem withSpan_outOfBounds {a n bad : Nat} (h : firstOutOfBounds a n = some bad) (s done : State) :
    withSpan a n s done = raiseAtExecute .memoryOutOfBounds (some bad) s := by
  unfold withSpan
  rw [h]

/-- R69: the halt of a transfer that leaves memory names the lowest of its addresses that is 4096 or more. -/
theorem withSpan_halts {a n : Nat} (hn : n ≠ 0) (h : 4096 < a + n) (s done : State) :
    Halts (.next (withSpan a n s done)) ⟨.memoryOutOfBounds, s.fetchAddr, some s.fetchWord, some (max a 4096)⟩ := by
  have h' : Config.memSize < a + n := h
  have e : firstOutOfBounds a n = some (max a 4096) := by
    unfold firstOutOfBounds
    rw [if_neg hn, if_pos h']
    rfl
  rw [withSpan_outOfBounds e]
  exact raiseFatal_halts ..

/-- A transfer either completes, all of its addresses in bounds, or takes the fatal halt. -/
theorem withSpan_cases (a n : Nat) (s done : State) :
    ((∀ k < n, a + k < Config.memSize) ∧ withSpan a n s done = done) ∨
    ∃ bad, firstOutOfBounds a n = some bad ∧ withSpan a n s done = raiseAtExecute .memoryOutOfBounds (some bad) s := by
  cases h : firstOutOfBounds a n with
  | none => exact .inl ⟨firstOutOfBounds_eq_none.mp h, withSpan_inBounds (firstOutOfBounds_eq_none.mp h) s done⟩
  | some bad => exact .inr ⟨bad, rfl, withSpan_outOfBounds h s done⟩

/-- R194: the byte stored for register `k`. -/
theorem regsUpTo_getD (s : State) (x r : Reg) (h : r ≤ x) : (regsUpTo s x).getD r.val 0 = s.getV r := by
  have hx : r.val < x.val + 1 := Nat.lt_succ_of_le h
  simp [regsUpTo, List.getD_eq_getElem?_getD, hx, State.getV]

theorem regsUpTo_length (s : State) (x : Reg) : (regsUpTo s x).length = x.val + 1 := by
  have := x.isLt
  simp [regsUpTo]

/-- R195: every register up to `x` is loaded, and no other changes. -/
theorem loadRegs_get (m : Memory) (a : Nat) (x : Reg) (v : RegFile) (r : Reg) :
    (loadRegs m a x v)[r] = if r ≤ x then m.read (a + r.val) else v[r] := by
  suffices ∀ k ≤ 16, ((List.range k).foldl (fun v j => v.setIfInBounds j (m.read (a + j))) v)[r] =
      if r.val < k then m.read (a + r.val) else v[r] by
    have h := this (x.val + 1) (by have := x.isLt; omega)
    simpa [loadRegs, Nat.lt_succ_iff] using h
  intro k hk
  induction k with
  | zero => simp
  | succ k ih =>
    rw [List.range_succ, List.foldl_append, List.foldl_cons, List.foldl_nil]
    have hr := r.isLt
    by_cases e : r.val = k
    · subst e; simp
    · have ih := ih (by omega)
      simp only [Fin.getElem_fin] at ih ⊢
      rw [Vector.getElem_setIfInBounds_ne _ (by omega), ih]
      simp [show r.val < k + 1 ↔ r.val < k by omega]

/-! ### The stack -/

theorem popPc_nil {s : State} (h : s.stack = []) : popPc s = raiseAtExecute .stackUnderflow none s := by
  simp [popPc, h]

theorem popPc_cons {s : State} {top : Word} {rest : List Word} (h : s.stack = top :: rest) :
    popPc s = (s.setStack rest).setPc top := by
  simp [popPc, h]

/-- R26: a stack of no stated capacity is never full. -/
theorem pushPcAndJump_none (target : Word) (s : State) :
    pushPcAndJump none target s = (s.setStack (s.pc :: s.stack)).setPc target := rfl

/-! ### The skip -/

section
variable (c : Bool) (s : State)

@[simp] theorem skipIf_true : skipIf true s = s.setPc (s.pc + 2) := rfl
@[simp] theorem skipIf_false : skipIf false s = s := rfl

end

/-! ### The timers -/

theorem tickDue_iff {unitsPerSecond now lastTick : Nat} :
    tickDue unitsPerSecond now lastTick = true ↔ lastTick ≤ now ∧ unitsPerSecond ≤ 60 * (now - lastTick) := by
  simp [tickDue]

/-- R259: a decrement, saturating at zero. -/
theorem countDown_toNat (b : Byte) : (countDown b).toNat = b.toNat - 1 := by
  unfold countDown
  split
  · next h => subst h; rfl
  · next h =>
    have h0 : b.toNat ≠ 0 := fun e => h (BitVec.eq_of_toNat_eq (by simpa using e))
    have := b.isLt
    rw [BitVec.toNat_sub]
    simp; omega

theorem countDown_eq (b : Byte) : countDown b = BitVec.ofNat 8 (b.toNat - 1) := by
  apply BitVec.eq_of_toNat_eq
  rw [countDown_toNat]
  have := b.isLt
  simp; omega

/-- A timer update that is not due changes nothing. -/
theorem timerTick_notDue {unitsPerSecond now : Nat} {s : State} (h : tickDue unitsPerSecond now s.lastTick = false) :
    timerTick unitsPerSecond now s = s := by
  simp [timerTick, h]

section
variable (unitsPerSecond now : Nat) (key : Option Key) (s : State)

@[simp] theorem timerTick_v : (timerTick unitsPerSecond now s).v = s.v := rfl
@[simp] theorem timerTick_halted : (timerTick unitsPerSecond now s).halted = s.halted := rfl
@[simp] theorem beginCycle_v : (beginCycle unitsPerSecond now key s).v = s.v := rfl
@[simp] theorem beginCycle_pc : (beginCycle unitsPerSecond now key s).pc = s.pc + 2 := rfl
@[simp] theorem beginCycle_index : (beginCycle unitsPerSecond now key s).index = s.index := rfl
@[simp] theorem beginCycle_stack : (beginCycle unitsPerSecond now key s).stack = s.stack := rfl
@[simp] theorem beginCycle_disp : (beginCycle unitsPerSecond now key s).disp = s.disp := rfl
@[simp] theorem beginCycle_mem : (beginCycle unitsPerSecond now key s).mem = s.mem := rfl
@[simp] theorem beginCycle_prng : (beginCycle unitsPerSecond now key s).prng = s.prng := rfl
@[simp] theorem beginCycle_halted : (beginCycle unitsPerSecond now key s).halted = s.halted := rfl
@[simp] theorem beginCycle_redraw : (beginCycle unitsPerSecond now key s).redraw = false := rfl
@[simp] theorem beginCycle_key : (beginCycle unitsPerSecond now key s).key = key := rfl
@[simp] theorem beginCycle_fetchAddr : (beginCycle unitsPerSecond now key s).fetchAddr = s.pc := rfl
@[simp] theorem beginCycle_fetchWord : (beginCycle unitsPerSecond now key s).fetchWord = s.mem.fetch s.pc := rfl
@[simp] theorem beginCycle_events : (beginCycle unitsPerSecond now key s).events = s.events := rfl
@[simp] theorem beginCycle_strobes : (beginCycle unitsPerSecond now key s).strobes = s.strobes := rfl
theorem beginCycle_dt : (beginCycle unitsPerSecond now key s).dt =
    if tickDue unitsPerSecond now s.lastTick then countDown s.dt else s.dt := rfl
theorem beginCycle_st : (beginCycle unitsPerSecond now key s).st =
    if tickDue unitsPerSecond now s.lastTick then countDown s.st else s.st := rfl
theorem beginCycle_lastTick : (beginCycle unitsPerSecond now key s).lastTick =
    if tickDue unitsPerSecond now s.lastTick then now else s.lastTick := rfl

@[simp] theorem takeEvent_events : (takeEvent s).events = s.events.tail := rfl
@[simp] theorem takeEvent_halted : (takeEvent s).halted = s.halted := rfl
@[simp] theorem takeEvent_mem : (takeEvent s).mem = s.mem := rfl
@[simp] theorem takeEvent_pc : (takeEvent s).pc = s.pc := rfl

end

/-! ### The fetch checks -/

theorem fetchFault_eq_none {alignStrict : Bool} {a : Word} : fetchFault alignStrict a = none ↔ Fetchable alignStrict a := by
  unfold fetchFault Fetchable
  split
  · next h => simp; omega
  · next h =>
    cases alignStrict
    · simp; omega
    · simp; omega

/-- R255: the bounds come before the alignment. -/
theorem fetchFault_cases (alignStrict : Bool) (a : Word) :
    (fetchFault alignStrict a = some .pcOutOfBounds ∧ (a.toNat < 0x200 ∨ 0xFFE < a.toNat)) ∨
    (fetchFault alignStrict a = some .pcMisaligned ∧ 0x200 ≤ a.toNat ∧ a.toNat ≤ 0xFFE ∧ a.toNat % 2 = 1 ∧ alignStrict = true) ∨
    (fetchFault alignStrict a = none ∧ Fetchable alignStrict a) := by
  unfold fetchFault Fetchable
  by_cases h : a.toNat < 0x200 ∨ 0xFFE < a.toNat
  · exact .inl ⟨if_pos h, h⟩
  · refine .inr ?_
    rw [if_neg h]
    cases alignStrict
    · refine .inr ⟨by simp, ?_⟩; simp; omega
    · by_cases e : a.toNat % 2 = 1
      · refine .inl ⟨by simp [e], ?_⟩; simp; omega
      · refine .inr ⟨by simp [e], ?_⟩; simp; omega

/-! ### The flags -/

@[simp] theorem writeWithFlag_pc (o : VfWriteOrder) (x : Reg) (r f : Byte) (s : State) : (writeWithFlag o x r f s).pc = s.pc := rfl

/-- R161: for a register other than VF both orders write the result and the flag. -/
theorem writeWithFlag_getV (o : VfWriteOrder) {x : Reg} (hx : x ≠ VF) (r f : Byte) (s : State) (k : Reg) :
    (writeWithFlag o x r f s).getV k = if k = VF then f else if k = x then r else s.getV k := by
  have ne : x.val ≠ VF.val := fun e => hx (Fin.ext e)
  cases o
  · have h : writeWithFlag .flagLast x r f s = (s.setV x r).setV VF f := rfl
    rw [h, getV_setV, getV_setV]
  · have h : writeWithFlag .resultLast x r f s = (s.setV VF f).setV x r := rfl
    rw [h, getV_setV, getV_setV]
    by_cases e : k = VF
    · subst e; simp [Ne.symm hx]
    · simp [e]

/-- R161: with `x = 0xF` the write order decides. -/
theorem writeWithFlag_getV_VF (o : VfWriteOrder) (r f : Byte) (s : State) (k : Reg) :
    (writeWithFlag o VF r f s).getV k =
      if k = VF then (match o with | .flagLast => f | .resultLast => r) else s.getV k := by
  cases o
  · have h : writeWithFlag .flagLast VF r f s = (s.setV VF r).setV VF f := rfl
    rw [h, getV_setV, getV_setV]; split <;> simp_all
  · have h : writeWithFlag .resultLast VF r f s = (s.setV VF f).setV VF r := rfl
    rw [h, getV_setV, getV_setV]; split <;> simp_all

/-! ### A cycle and a step -/

/-- Everything one cycle can do: idle while halted, a fetch fault, a decoding fault, or the execution of the decoded instruction. -/
theorem cycleWith_cases (alignStrict : Bool) (units : Nat) (run : Instr → State → Host.Outcome State Fault Refusal)
    (now : Nat) (key : Option Key) (s : State) :
    (s.halted ≠ none ∧ cycleWith alignStrict units run now key s = .next (idleCycle s)) ∨
    (Running s ∧ ∃ code, fetchFault alignStrict s.pc = some code ∧
      cycleWith alignStrict units run now key s = .next (raiseFatal code none none (latchFetchAddr s))) ∨
    (Running s ∧ fetchFault alignStrict s.pc = none ∧ (∃ e, decodeWord (s.mem.fetch s.pc) = .error e) ∧
      cycleWith alignStrict units run now key s =
        .next (raiseAtExecute .decodeFailure none (beginCycle units now key s))) ∨
    (Running s ∧ fetchFault alignStrict s.pc = none ∧ ∃ i, decodeWord (s.mem.fetch s.pc) = .ok i ∧
      cycleWith alignStrict units run now key s = run i (beginCycle units now key s)) := by
  unfold cycleWith Running
  cases hh : s.halted with
  | some r => exact .inl ⟨by simp, rfl⟩
  | none =>
    cases hf : fetchFault alignStrict s.pc with
    | some code => exact .inr (.inl ⟨rfl, code, rfl, rfl⟩)
    | none =>
      cases hd : decodeWord (s.mem.fetch s.pc) with
      | error e => exact .inr (.inr (.inl ⟨rfl, rfl, ⟨e, rfl⟩, rfl⟩))
      | ok i => exact .inr (.inr (.inr ⟨rfl, rfl, i, rfl, rfl⟩))

theorem step_cycle {s : State} {now : Nat} {key : Option Key} (h : nextEvent s = .cycle now key) :
    step s = cycleWith Config.pcAlignStrict Config.timeUnitsPerSecond exec now key (takeEvent s) := by
  simp [step, stepWith, h]

theorem step_reset {s : State} {seed t0 : Nat} {image : List Byte} (h : nextEvent s = .reset seed t0 image) :
    step s = .next (applyReset seed t0 image (takeEvent s)) := by
  simp [step, stepWith, h]

/-- One more step in front of a run. -/
theorem run_succ {k : Nat} {s t : State} (h : step s = .next t) : core.run (k + 1) s = core.run k t := by
  have h' : core.step s = .next t := h
  simp only [Host.Core.run, h']

/-- A fetch from the slot `withFetchWord` uses passes the checks. -/
theorem fetchSlot_fetchable (s : State) : Fetchable Config.pcAlignStrict (fetchSlot s) := by
  unfold fetchSlot
  split
  · next h =>
    rw [Option.isNone_iff_eq_none] at h
    exact fetchFault_eq_none.mp h
  · exact fetchFault_eq_none.mp (by unfold fetchFault; simp)

end Sys2Proof.Machine
end

