-- ==== Sys2Proof/Laws/Frames.lean ====
section
/-! SUPPORT. The frame of each setter and shared operation, and how frames combine. -/

namespace Sys2Proof.Machine

/-! ### How frames combine -/

theorem OnlyChanges.refl (es : List Element) (s : State) : OnlyChanges es s s :=
  ⟨fun e _ => by cases e <;> first | rfl | exact fun _ => rfl, rfl, rfl, rfl, rfl, rfl⟩

theorem OnlyChanges.mono {es es' : List Element} {s t : State} (h : OnlyChanges es s t) (sub : es ⊆ es') :
    OnlyChanges es' s t := ⟨fun e he => h.1 e fun hm => he (sub hm), h.2⟩

theorem Element.same_trans {e : Element} {s t u : State} (h : e.same s t) (h' : e.same t u) : e.same s u := by
  cases e <;> first | exact h'.trans h | exact fun a => (h' a).trans (h a)

theorem OnlyChanges.trans {es : List Element} {s t u : State} (h : OnlyChanges es s t) (h' : OnlyChanges es t u) :
    OnlyChanges es s u := by
  obtain ⟨h, k1, k2, k3, k4, k5⟩ := h
  obtain ⟨h', k1', k2', k3', k4', k5'⟩ := h'
  exact ⟨fun e he => Element.same_trans (h e he) (h' e he), k1'.trans k1, k2'.trans k2, k3'.trans k3, k4'.trans k4, k5'.trans k5⟩

theorem OnlyRegs.trans {xs : List Reg} {s t u : State} (h : OnlyRegs xs s t) (h' : OnlyRegs xs t u) : OnlyRegs xs s u :=
  fun r hr => (h' r hr).trans (h r hr)

/-! ### The setters -/

section
variable (s : State)

theorem setRegs_frame (v : RegFile) : OnlyChanges [.v] s (s.setRegs v) :=
  ⟨fun e he => by cases e <;> first | exact absurd (by decide) he | rfl | exact fun _ => rfl, rfl, rfl, rfl, rfl, rfl⟩
theorem setV_frame (x : Reg) (b : Byte) : OnlyChanges [.v] s (s.setV x b) := setRegs_frame s _
theorem setV_onlyRegs (x : Reg) (b : Byte) : OnlyRegs [x] s (s.setV x b) :=
  fun r hr => getV_setV_ne s b fun e => hr (by simp [e])
theorem setPc_frame (a : Word) : OnlyChanges [.pc] s (s.setPc a) :=
  ⟨fun e he => by cases e <;> first | exact absurd (by decide) he | rfl | exact fun _ => rfl, rfl, rfl, rfl, rfl, rfl⟩
theorem setIndex_frame (a : Word) : OnlyChanges [.index] s (s.setIndex a) :=
  ⟨fun e he => by cases e <;> first | exact absurd (by decide) he | rfl | exact fun _ => rfl, rfl, rfl, rfl, rfl, rfl⟩
theorem setDt_frame (b : Byte) : OnlyChanges [.dt] s (s.setDt b) :=
  ⟨fun e he => by cases e <;> first | exact absurd (by decide) he | rfl | exact fun _ => rfl, rfl, rfl, rfl, rfl, rfl⟩
theorem setSt_frame (b : Byte) : OnlyChanges [.st] s (s.setSt b) :=
  ⟨fun e he => by cases e <;> first | exact absurd (by decide) he | rfl | exact fun _ => rfl, rfl, rfl, rfl, rfl, rfl⟩
theorem present_frame (d : Display) : OnlyChanges [.disp, .redraw] s (s.present d) :=
  ⟨fun e he => by cases e <;> first | exact absurd (by decide) he | rfl | exact fun _ => rfl, rfl, rfl, rfl, rfl, rfl⟩
theorem setMem_frame (m : Memory) : OnlyChanges [.mem] s (s.setMem m) :=
  ⟨fun e he => by cases e <;> first | exact absurd (by decide) he | rfl | exact fun _ => rfl, rfl, rfl, rfl, rfl, rfl⟩
theorem setPrng_frame (p : Nat) : OnlyChanges [.prng] s (s.setPrng p) :=
  ⟨fun e he => by cases e <;> first | exact absurd (by decide) he | rfl | exact fun _ => rfl, rfl, rfl, rfl, rfl, rfl⟩
theorem setStack_frame (l : List Word) : OnlyChanges [.stack] s (s.setStack l) :=
  ⟨fun e he => by cases e <;> first | exact absurd (by decide) he | rfl | exact fun _ => rfl, rfl, rfl, rfl, rfl, rfl⟩

/-! ### The shared operations -/

theorem skipIf_frame (c : Bool) : OnlyChanges [.pc] s (skipIf c s) := setPc_frame s _
theorem rewindPc_frame : OnlyChanges [.pc] s (rewindPc s) := setPc_frame s _
theorem stackThenPc_frame (l : List Word) (a : Word) : OnlyChanges [.pc, .stack] s ((s.setStack l).setPc a) :=
  ((setStack_frame s l).mono (by simp)).trans ((setPc_frame _ a).mono (by simp))
theorem writeWithFlag_frame (o : VfWriteOrder) (x : Reg) (r f : Byte) : OnlyChanges [.v] s (writeWithFlag o x r f s) :=
  setRegs_frame s _
theorem writeWithFlag_onlyRegs (o : VfWriteOrder) (x : Reg) (r f : Byte) : OnlyRegs [x, VF] s (writeWithFlag o x r f s) := by
  intro k hk
  have h1 : k ≠ x := fun e => hk (by simp [e])
  have h2 : k ≠ VF := fun e => hk (by simp [e])
  by_cases e : x = VF
  · subst e; rw [writeWithFlag_getV_VF, if_neg h2]
  · rw [writeWithFlag_getV o e, if_neg h2, if_neg h1]
theorem writeCollision_frame (c hit : Bool) : OnlyChanges [.v] s (writeCollision c hit s) := setRegs_frame s _
/-- R212: Draw's flag is written only where the parameter says so, and no other register is. -/
theorem writeCollision_getV (c hit : Bool) (k : Reg) :
    (writeCollision c hit s).getV k = if c = true ∧ k = VF then flagByte hit else s.getV k := by
  cases c with
  | false => simp [writeCollision, State.getV]
  | true =>
    simp only [true_and]
    exact getV_setV s VF k (flagByte hit)

/-- Bytes written in bounds: no other byte changes. -/
theorem writeBytes_onlyBytes (hm : s.mem.wf = true) (a : Nat) (bs : List Byte) (h : a + bs.length ≤ Config.memSize) :
    OnlyBytes a bs.length s (s.setMem (s.mem.writeBytes a bs)) := by
  intro a' ha
  show (s.mem.writeBytes a bs).read a' = _
  rw [Memory.read_writeBytes hm a bs h, if_neg (by omega)]

end

end Sys2Proof.Machine
end

