-- ==== Sys2Proof/Laws/PerInstr.lean ====
section
/-! SUPPORT. Facts stated of every instruction as syntax, one lemma per constructor. -/

namespace Sys2Proof.Laws.TableRow

/-- R96: an instruction's word is covered by its own row of the opcode table. -/
def Statement (i : Instr) : Prop := ∃ row ∈ opcodeTable, row.tag = i.tag ∧ row.covers (encode i) = true

/-- A row of the table that covers the word. -/
theorem of_row {i : Instr} (row : OpcodeRow) (mem : row ∈ opcodeTable) (tag : row.tag = i.tag)
    (covers : encode i &&& row.mask = row.pattern) : Statement i :=
  ⟨row, mem, tag, decide_eq_true covers⟩

theorem clearScreen : Statement .clearScreen := of_row ⟨.clearScreen, 0x00E0, 0xFFFF⟩ (by decide) rfl (by decide)
theorem ret : Statement .ret := of_row ⟨.ret, 0x00EE, 0xFFFF⟩ (by decide) rfl (by decide)

theorem jump (nnn : Addr12) : Statement (.jump nnn) :=
  of_row ⟨.jump, 0x1000, 0xF000⟩ (by decide) rfl ((and_F000_iff _ 0x1).mpr (opField_wordNNN _ nnn))
theorem call (nnn : Addr12) : Statement (.call nnn) :=
  of_row ⟨.call, 0x2000, 0xF000⟩ (by decide) rfl ((and_F000_iff _ 0x2).mpr (opField_wordNNN _ nnn))
theorem loadIndex (nnn : Addr12) : Statement (.loadIndex nnn) :=
  of_row ⟨.loadIndex, 0xa000, 0xF000⟩ (by decide) rfl ((and_F000_iff _ 0xa).mpr (opField_wordNNN _ nnn))

theorem skipEqImm (x : Reg) (kk : Byte) : Statement (.skipEqImm x kk) :=
  of_row ⟨.skipEqImm, 0x3000, 0xF000⟩ (by decide) rfl ((and_F000_iff _ 0x3).mpr (opField_wordXKK _ x kk))
theorem skipNeqImm (x : Reg) (kk : Byte) : Statement (.skipNeqImm x kk) :=
  of_row ⟨.skipNeqImm, 0x4000, 0xF000⟩ (by decide) rfl ((and_F000_iff _ 0x4).mpr (opField_wordXKK _ x kk))
theorem loadImm (x : Reg) (kk : Byte) : Statement (.loadImm x kk) :=
  of_row ⟨.loadImm, 0x6000, 0xF000⟩ (by decide) rfl ((and_F000_iff _ 0x6).mpr (opField_wordXKK _ x kk))
theorem addImm (x : Reg) (kk : Byte) : Statement (.addImm x kk) :=
  of_row ⟨.addImm, 0x7000, 0xF000⟩ (by decide) rfl ((and_F000_iff _ 0x7).mpr (opField_wordXKK _ x kk))
theorem random (x : Reg) (kk : Byte) : Statement (.random x kk) :=
  of_row ⟨.random, 0xc000, 0xF000⟩ (by decide) rfl ((and_F000_iff _ 0xc).mpr (opField_wordXKK _ x kk))
theorem draw (x y : Reg) (n : Nibble) : Statement (.draw x y n) :=
  of_row ⟨.draw, 0xD000, 0xF000⟩ (by decide) rfl ((and_F000_iff _ 0xD).mpr (opField_wordXYN _ x y n))

theorem skipEqReg (x y : Reg) : Statement (.skipEqReg x y) :=
  of_row ⟨.skipEqReg, 0x5000, 0xF00F⟩ (by decide) rfl
    ((and_F00F_iff _ 0x5 0x0).mpr ⟨opField_wordXYN _ x y _, nField_wordXYN _ x y _⟩)
theorem move (x y : Reg) : Statement (.move x y) :=
  of_row ⟨.move, 0x8000, 0xF00F⟩ (by decide) rfl
    ((and_F00F_iff _ 0x8 0x0).mpr ⟨opField_wordXYN _ x y _, nField_wordXYN _ x y _⟩)
theorem or (x y : Reg) : Statement (.or x y) :=
  of_row ⟨.or, 0x8001, 0xF00F⟩ (by decide) rfl
    ((and_F00F_iff _ 0x8 0x1).mpr ⟨opField_wordXYN _ x y _, nField_wordXYN _ x y _⟩)
theorem and (x y : Reg) : Statement (.and x y) :=
  of_row ⟨.and, 0x8002, 0xF00F⟩ (by decide) rfl
    ((and_F00F_iff _ 0x8 0x2).mpr ⟨opField_wordXYN _ x y _, nField_wordXYN _ x y _⟩)
theorem xor (x y : Reg) : Statement (.xor x y) :=
  of_row ⟨.xor, 0x8003, 0xF00F⟩ (by decide) rfl
    ((and_F00F_iff _ 0x8 0x3).mpr ⟨opField_wordXYN _ x y _, nField_wordXYN _ x y _⟩)
theorem add (x y : Reg) : Statement (.add x y) :=
  of_row ⟨.add, 0x8004, 0xF00F⟩ (by decide) rfl
    ((and_F00F_iff _ 0x8 0x4).mpr ⟨opField_wordXYN _ x y _, nField_wordXYN _ x y _⟩)
theorem subForward (x y : Reg) : Statement (.subForward x y) :=
  of_row ⟨.subForward, 0x8005, 0xF00F⟩ (by decide) rfl
    ((and_F00F_iff _ 0x8 0x5).mpr ⟨opField_wordXYN _ x y _, nField_wordXYN _ x y _⟩)
theorem subBackward (x y : Reg) : Statement (.subBackward x y) :=
  of_row ⟨.subBackward, 0x8007, 0xF00F⟩ (by decide) rfl
    ((and_F00F_iff _ 0x8 0x7).mpr ⟨opField_wordXYN _ x y _, nField_wordXYN _ x y _⟩)
theorem skipNeqReg (x y : Reg) : Statement (.skipNeqReg x y) :=
  of_row ⟨.skipNeqReg, 0x9000, 0xF00F⟩ (by decide) rfl
    ((and_F00F_iff _ 0x9 0x0).mpr ⟨opField_wordXYN _ x y _, nField_wordXYN _ x y _⟩)
theorem shiftRight (x : Reg) : Statement (.shiftRight x) :=
  of_row ⟨.shiftRight, 0x8006, 0xF00F⟩ (by decide) rfl
    ((and_F00F_iff _ 0x8 0x6).mpr ⟨opField_wordXYN _ x 0 _, nField_wordXYN _ x 0 _⟩)
theorem shiftLeft (x : Reg) : Statement (.shiftLeft x) :=
  of_row ⟨.shiftLeft, 0x800e, 0xF00F⟩ (by decide) rfl
    ((and_F00F_iff _ 0x8 0xe).mpr ⟨opField_wordXYN _ x 0 _, nField_wordXYN _ x 0 _⟩)

theorem skipKeyPressed (x : Reg) : Statement (.skipKeyPressed x) :=
  of_row ⟨.skipKeyPressed, 0xe09e, 0xF0FF⟩ (by decide) rfl
    ((and_F0FF_iff _ 0xe 0x9e).mpr ⟨opField_wordXKK _ x _, kkField_wordXKK _ x _⟩)
theorem skipKeyNotPressed (x : Reg) : Statement (.skipKeyNotPressed x) :=
  of_row ⟨.skipKeyNotPressed, 0xe0a1, 0xF0FF⟩ (by decide) rfl
    ((and_F0FF_iff _ 0xe 0xa1).mpr ⟨opField_wordXKK _ x _, kkField_wordXKK _ x _⟩)
theorem loadDelay (x : Reg) : Statement (.loadDelay x) :=
  of_row ⟨.loadDelay, 0xf007, 0xF0FF⟩ (by decide) rfl
    ((and_F0FF_iff _ 0xf 0x07).mpr ⟨opField_wordXKK _ x _, kkField_wordXKK _ x _⟩)
theorem waitKey (x : Reg) : Statement (.waitKey x) :=
  of_row ⟨.waitKey, 0xf00a, 0xF0FF⟩ (by decide) rfl
    ((and_F0FF_iff _ 0xf 0x0a).mpr ⟨opField_wordXKK _ x _, kkField_wordXKK _ x _⟩)
theorem storeDelay (x : Reg) : Statement (.storeDelay x) :=
  of_row ⟨.storeDelay, 0xf015, 0xF0FF⟩ (by decide) rfl
    ((and_F0FF_iff _ 0xf 0x15).mpr ⟨opField_wordXKK _ x _, kkField_wordXKK _ x _⟩)
theorem storeSound (x : Reg) : Statement (.storeSound x) :=
  of_row ⟨.storeSound, 0xf018, 0xF0FF⟩ (by decide) rfl
    ((and_F0FF_iff _ 0xf 0x18).mpr ⟨opField_wordXKK _ x _, kkField_wordXKK _ x _⟩)
theorem addToIndex (x : Reg) : Statement (.addToIndex x) :=
  of_row ⟨.addToIndex, 0xf01e, 0xF0FF⟩ (by decide) rfl
    ((and_F0FF_iff _ 0xf 0x1e).mpr ⟨opField_wordXKK _ x _, kkField_wordXKK _ x _⟩)
theorem fontChar (x : Reg) : Statement (.fontChar x) :=
  of_row ⟨.fontChar, 0xf029, 0xF0FF⟩ (by decide) rfl
    ((and_F0FF_iff _ 0xf 0x29).mpr ⟨opField_wordXKK _ x _, kkField_wordXKK _ x _⟩)
theorem storeBCD (x : Reg) : Statement (.storeBCD x) :=
  of_row ⟨.storeBCD, 0xf033, 0xF0FF⟩ (by decide) rfl
    ((and_F0FF_iff _ 0xf 0x33).mpr ⟨opField_wordXKK _ x _, kkField_wordXKK _ x _⟩)
theorem storeRange (x : Reg) : Statement (.storeRange x) :=
  of_row ⟨.storeRange, 0xf055, 0xF0FF⟩ (by decide) rfl
    ((and_F0FF_iff _ 0xf 0x55).mpr ⟨opField_wordXKK _ x _, kkField_wordXKK _ x _⟩)
theorem loadRange (x : Reg) : Statement (.loadRange x) :=
  of_row ⟨.loadRange, 0xf065, 0xF0FF⟩ (by decide) rfl
    ((and_F0FF_iff _ 0xf 0x65).mpr ⟨opField_wordXKK _ x _, kkField_wordXKK _ x _⟩)

end Sys2Proof.Laws.TableRow
end

