-- ==== Sys2Proof/Laws/Sprite.lean ====
section
/-! SUPPORT. The XOR compositor (spec/44_display.md R210, R212, R213): every cell after a sprite, and its collision. -/

namespace Sys2Proof.Machine

section Pixel
variable (px py : Nat) (acc : Composition) (c r : Nat) (hc : c < 64) (hr : r < 32)

/-- R210: one set pixel toggles its own cell and no other. -/
theorem togglePixel_cell :
    (togglePixel px py acc).1[c][r] = (acc.1[c][r] ^^ decide (c = px ∧ r = py)) := by
  unfold togglePixel
  split
  · by_cases h1 : px = c
    · subst h1
      by_cases h2 : py = r
      · subst h2; simp
      · simp [h2, Ne.symm h2]
    · simp [Vector.getElem_set_ne, h1, Ne.symm h1]
  · next h =>
    have : ¬ (c = px ∧ r = py) := by omega
    simp [this]

/-- R212: a set pixel collides iff it lies on the grid on a lit cell. -/
theorem togglePixel_collided :
    ((togglePixel px py acc).2 = true) ↔ (acc.2 = true ∨ ∃ (hx : px < 64) (hy : py < 32), acc.1[px][py] = true) := by
  unfold togglePixel
  split
  · next h => simp [h]
  · next h =>
    refine ⟨.inl, ?_⟩
    rintro (h' | ⟨hx, hy, _⟩)
    · exact h'
    · exact absurd ⟨hx, hy⟩ h

end Pixel

/-- Column `c` of row `r` under the first `k` columns of a sprite row at `(cx, py)`. -/
def rowCovers (cx py : Nat) (b : Byte) (k c r : Nat) : Prop :=
  cx ≤ c ∧ c < cx + k ∧ r = py ∧ spriteBit b (c - cx) = true

theorem rowPrefix_cell (cx py : Nat) (b : Byte) (k : Nat) (acc : Composition) (c r : Nat) (hc : c < 64) (hr : r < 32) :
    (((List.range k).foldl (fun acc j => if spriteBit b j then togglePixel (cx + j) py acc else acc) acc).1[c][r] = true) ↔
      ¬ (acc.1[c][r] = true ↔ rowCovers cx py b k c r) := by
  induction k with
  | zero =>
    have : ¬ rowCovers cx py b 0 c r := by rintro ⟨h1, h2, _⟩; omega
    simp [this]
  | succ k ih =>
    rw [List.range_succ, List.foldl_append, List.foldl_cons, List.foldl_nil]
    have step : rowCovers cx py b (k + 1) c r ↔
        rowCovers cx py b k c r ∨ (c = cx + k ∧ r = py ∧ spriteBit b k = true) := by
      unfold rowCovers
      constructor
      · rintro ⟨h1, h2, h3, h4⟩
        by_cases e : c = cx + k
        · subst e; exact .inr ⟨rfl, h3, by simpa using h4⟩
        · exact .inl ⟨h1, by omega, h3, h4⟩
      · rintro (⟨h1, h2, h3, h4⟩ | ⟨rfl, h3, h4⟩)
        · exact ⟨h1, by omega, h3, h4⟩
        · exact ⟨by omega, by omega, h3, by simpa using h4⟩
    have apart : c = cx + k → ¬ rowCovers cx py b k c r := fun e h => by unfold rowCovers at h; omega
    split
    · next hb =>
      rw [togglePixel_cell _ _ _ _ _ hc hr, step]
      by_cases e : c = cx + k ∧ r = py
      · obtain ⟨rfl, rfl⟩ := e
        have off := apart rfl
        simp only [off, iff_false, Decidable.not_not] at ih
        simp [hb, off, Bool.eq_iff_iff.mpr ih]
      · simp only [e, hb, decide_false, Bool.xor_false, ih, and_true, or_false]
    · next hb => rw [ih, step]; simp [hb]

theorem rowPrefix_collided (cx py : Nat) (b : Byte) (k : Nat) (acc : Composition) :
    (((List.range k).foldl (fun acc j => if spriteBit b j then togglePixel (cx + j) py acc else acc) acc).2 = true) ↔
      (acc.2 = true ∨ ∃ c r, ∃ (hc : c < 64) (hr : r < 32), rowCovers cx py b k c r ∧ acc.1[c][r] = true) := by
  induction k with
  | zero =>
    have (c r : Nat) : ¬ rowCovers cx py b 0 c r := by rintro ⟨h1, h2, _⟩; omega
    simp [this]
  | succ k ih =>
    rw [List.range_succ, List.foldl_append, List.foldl_cons, List.foldl_nil]
    split
    · next hb =>
      rw [togglePixel_collided, ih]
      constructor
      · rintro ((h | ⟨c, r, hc, hr, h, hl⟩) | ⟨h1, h2, hl⟩)
        · exact .inl h
        · exact .inr ⟨c, r, hc, hr, ⟨h.1, by have := h.2.1; omega, h.2.2⟩, hl⟩
        · refine .inr ⟨cx + k, py, h1, h2, ⟨by omega, by omega, rfl, by simpa using hb⟩, ?_⟩
          rw [rowPrefix_cell cx py b k acc _ _ h1 h2] at hl
          have : ¬ rowCovers cx py b k (cx + k) py := fun h => by unfold rowCovers at h; omega
          simpa [this] using hl
      · rintro (h | ⟨c, r, hc, hr, h, hl⟩)
        · exact .inl (.inl h)
        · obtain ⟨h1, h2, h3, h4⟩ := h
          by_cases e : c = cx + k
          · subst e; subst h3
            refine .inr ⟨hc, hr, ?_⟩
            rw [rowPrefix_cell cx r b k acc _ _ hc hr]
            have : ¬ rowCovers cx r b k (cx + k) r := fun h => by unfold rowCovers at h; omega
            simp [this, hl]
          · exact .inl (.inr ⟨c, r, hc, hr, ⟨h1, by omega, h3, h4⟩, hl⟩)
    · next hb =>
      rw [ih]
      have same (c r : Nat) : rowCovers cx py b (k + 1) c r ↔ rowCovers cx py b k c r := by
        unfold rowCovers
        constructor
        · rintro ⟨h1, h2, h3, h4⟩
          by_cases e : c = cx + k
          · subst e; simp at h4; exact absurd h4 hb
          · exact ⟨h1, by omega, h3, h4⟩
        · rintro ⟨h1, h2, h3, h4⟩; exact ⟨h1, by omega, h3, h4⟩
      simp only [same]

/-- Cell `(c, r)` under a sprite's rows anchored at `(cx, py)`. -/
def rowsCover (cx py : Nat) (rows : List Byte) (c r : Nat) : Prop :=
  cx ≤ c ∧ c < cx + 8 ∧ py ≤ r ∧ r < py + rows.length ∧ spriteBit (rows.getD (r - py) 0) (c - cx) = true

theorem rowsCover_cons (cx py : Nat) (b : Byte) (rows : List Byte) (c r : Nat) :
    rowsCover cx py (b :: rows) c r ↔ rowCovers cx py b 8 c r ∨ rowsCover cx (py + 1) rows c r := by
  unfold rowsCover rowCovers
  by_cases e : r = py
  · subst e
    simp [show ¬ r + 1 ≤ r by omega]
  · by_cases h : py ≤ r
    · obtain ⟨k, hk⟩ : ∃ k, r = py + 1 + k := ⟨r - py - 1, by omega⟩
      subst hk
      have e1 : py + 1 + k - py = k + 1 := by omega
      have e2 : py + 1 + k - (py + 1) = k := by omega
      rw [e1, e2]
      simp only [List.getD_cons_succ, List.length_cons]
      constructor
      · rintro ⟨h1, h2, h3, h4, h5⟩; exact .inr ⟨h1, h2, by omega, by omega, h5⟩
      · rintro (⟨_, _, h3, _⟩ | ⟨h1, h2, h3, h4, h5⟩)
        · omega
        · exact ⟨h1, h2, by omega, by omega, h5⟩
    · constructor
      · rintro ⟨_, _, h3, _⟩; omega
      · rintro (⟨_, _, h3, _⟩ | ⟨_, _, h3, _⟩) <;> omega

/-- R212: a cell is toggled iff a set sprite pixel lies on it; no cell is toggled twice. -/
theorem compositeRows_cell (cx py : Nat) (rows : List Byte) (acc : Composition) (c r : Nat) (hc : c < 64) (hr : r < 32) :
    ((compositeRows cx py rows acc).1[c][r] = true) ↔ ¬ (acc.1[c][r] = true ↔ rowsCover cx py rows c r) := by
  induction rows generalizing py acc with
  | nil =>
    have (c r : Nat) : ¬ rowsCover cx py [] c r := by rintro ⟨_, _, h3, h4, _⟩; simp at h4; omega
    simp [compositeRows, this]
  | cons b rows ih =>
    rw [compositeRows, ih, compositeRow, rowPrefix_cell cx py b 8 acc c r hc hr, rowsCover_cons]
    have apart : rowCovers cx py b 8 c r → ¬ rowsCover cx (py + 1) rows c r := by
      rintro ⟨_, _, h, _⟩ ⟨_, _, h', _⟩; omega
    by_cases h1 : rowCovers cx py b 8 c r
    · have h2 := apart h1; simp [h1, h2]
    · simp [h1]

/-- R212: Draw collides iff a set sprite pixel lies on a lit cell of the grid. -/
theorem compositeRows_collided (cx py : Nat) (rows : List Byte) (acc : Composition) :
    ((compositeRows cx py rows acc).2 = true) ↔
      (acc.2 = true ∨ ∃ c r, ∃ (hc : c < 64) (hr : r < 32), rowsCover cx py rows c r ∧ acc.1[c][r] = true) := by
  induction rows generalizing py acc with
  | nil =>
    have (c r : Nat) : ¬ rowsCover cx py [] c r := by rintro ⟨_, _, h3, h4, _⟩; simp at h4; omega
    simp [compositeRows, this]
  | cons b rows ih =>
    rw [compositeRows, ih, compositeRow, rowPrefix_collided cx py b 8 acc]
    constructor
    · rintro ((h | ⟨c, r, hc, hr, h, hl⟩) | ⟨c, r, hc, hr, h, hl⟩)
      · exact .inl h
      · exact .inr ⟨c, r, hc, hr, (rowsCover_cons ..).mpr (.inl h), hl⟩
      · refine .inr ⟨c, r, hc, hr, (rowsCover_cons ..).mpr (.inr h), ?_⟩
        rw [rowPrefix_cell cx py b 8 acc c r hc hr] at hl
        have : ¬ rowCovers cx py b 8 c r := by
          rintro ⟨_, _, h1, _⟩; obtain ⟨_, _, h2, _⟩ := h; omega
        simpa [this] using hl
    · rintro (h | ⟨c, r, hc, hr, h, hl⟩)
      · exact .inl (.inl h)
      · rcases (rowsCover_cons ..).mp h with h | h
        · exact .inl (.inr ⟨c, r, hc, hr, h, hl⟩)
        · refine .inr ⟨c, r, hc, hr, h, ?_⟩
          rw [rowPrefix_cell cx py b 8 acc c r hc hr]
          have : ¬ rowCovers cx py b 8 c r := by
            rintro ⟨_, _, h1, _⟩; obtain ⟨_, _, h2, _⟩ := h; omega
          simp [this, hl]

end Sys2Proof.Machine
end

