-- ==== Sys2Proof/Tests/Slice0.lean ====
section
/-! SUPPORT. The model's own tests: ill-formed terms refused, words written out from the spec's encodings, the vectors of
spec/95_test_vectors.md (its derived vectors and its quotations of the source), and a witness for the hypotheses of each statement. -/

namespace Sys2Proof.Machine

/-! ### Helpers -/

/-- A running state at a pc with some registers set, everything else as after reset but a time of 0 and a PRNG state of 0. -/
def testAt (pc : Word) (regs : List (Reg × Byte)) : State :=
  regs.foldl (fun s r => s.setV r.1 r.2) { State.reset with pc := pc, prng := 0, lastTick := 0 }

/-- The same at 0x202, the pc an instruction fetched at 0x200 sees. -/
def testCpu (regs : List (Reg × Byte)) : State := testAt 0x202 regs

/-- The same at 0x200 with words in memory from there on. -/
def testProg (words : List Word) : State :=
  (testAt 0x200 []).setMem (Memory.writeBytes [] 0x200 (words.flatMap bytesOfWord))

/-- A state with bytes in memory and the index at the first. -/
def State.testBytes (s : State) (a : Word) (bytes : List Byte) : State :=
  (s.setMem (s.mem.writeBytes a.toNat bytes)).setIndex a

/-- The state a step answers. -/
def after (o : Host.Outcome State Fault Refusal) : State :=
  match o with
  | .next t => t
  | .fault _ => State.reset
  | .refused _ => State.reset

/-- A cycle at time 0 with no key, odd fetches allowed. -/
def testCycle (s : State) : State := after (cycleWith false 60 exec 0 none s)

/-! ### Ill-formed terms are refused -/

theorem test_wf_register_out_of_range : AsmTerm.wellFormed ⟨.move, [.reg 16, .reg 0]⟩ = false := by decide
theorem test_wf_second_register_out_of_range : AsmTerm.wellFormed ⟨.add, [.reg 0, .reg 16]⟩ = false := by decide
theorem test_wf_byte_out_of_range : AsmTerm.wellFormed ⟨.loadImm, [.reg 0, .imm 256]⟩ = false := by decide
theorem test_wf_nibble_out_of_range : AsmTerm.wellFormed ⟨.draw, [.reg 0, .reg 1, .imm 16]⟩ = false := by decide
theorem test_wf_address_out_of_range : AsmTerm.wellFormed ⟨.jump, [.imm 4096]⟩ = false := by decide
theorem test_wf_immediate_for_register : AsmTerm.wellFormed ⟨.loadDelay, [.imm 0]⟩ = false := by decide
theorem test_wf_register_for_byte : AsmTerm.wellFormed ⟨.random, [.reg 0, .reg 1]⟩ = false := by decide
theorem test_wf_register_for_nibble : AsmTerm.wellFormed ⟨.draw, [.reg 0, .reg 1, .reg 2]⟩ = false := by decide
theorem test_wf_register_for_address : AsmTerm.wellFormed ⟨.call, [.reg 0]⟩ = false := by decide
theorem test_wf_operand_missing : AsmTerm.wellFormed ⟨.skipEqReg, [.reg 0]⟩ = false := by decide
theorem test_wf_operand_left_over : AsmTerm.wellFormed ⟨.ret, [.imm 0]⟩ = false := by decide
theorem test_wf_shift_has_two_forms : AsmTerm.wellFormed ⟨.shiftRight, [.reg 1]⟩ = true ∧
    AsmTerm.wellFormed ⟨.shiftRight, [.reg 1, .reg 11]⟩ = true ∧
    AsmTerm.wellFormed ⟨.shiftRight, [.reg 1, .reg 11, .reg 2]⟩ = false := by decide
theorem test_wf_largest_operands : AsmTerm.wellFormed ⟨.draw, [.reg 15, .reg 15, .imm 15]⟩ = true ∧
    AsmTerm.wellFormed ⟨.loadIndex, [.imm 4095]⟩ = true ∧ AsmTerm.wellFormed ⟨.addImm, [.reg 15, .imm 255]⟩ = true := by decide
/-- R95's `Draw Vx, Vy, n`; how the `3` is spelled is the model's choice (log entry 23). -/
theorem test_written_form : (Instr.draw 0 1 3).toTerm.text = "Draw V0, V1, 0x3" := by decide

/-! ### Words written out from the encodings, every constructor (R86 to R91) -/

theorem test_decode_group0 : decodeWord 0b0000000011100000 = .ok .clearScreen ∧
    decodeWord 0b0000000011101110 = .ok .ret := by decide
theorem test_decode_addresses : decodeWord 0b0001_111111111111 = .ok (.jump 0xFFF) ∧
    decodeWord 0b0010_000000000000 = .ok (.call 0) ∧ decodeWord 0b1010_001011100000 = .ok (.loadIndex 0x2E0) := by decide
theorem test_decode_immediates : decodeWord 0b0011_0000_00000101 = .ok (.skipEqImm 0 5) ∧
    decodeWord 0b0100_0011_00000110 = .ok (.skipNeqImm 3 6) ∧ decodeWord 0b0110_1010_01000010 = .ok (.loadImm 10 0x42) ∧
    decodeWord 0b0111_1010_10111100 = .ok (.addImm 10 0xBC) ∧ decodeWord 0b1100_0011_11111111 = .ok (.random 3 0xFF) := by decide
theorem test_decode_register_pairs : decodeWord 0b0101_0001_0010_0000 = .ok (.skipEqReg 1 2) ∧
    decodeWord 0b1001_1010_1011_0000 = .ok (.skipNeqReg 10 11) ∧ decodeWord 0b1000_0001_0010_0000 = .ok (.move 1 2) ∧
    decodeWord 0b1000_0001_0010_0001 = .ok (.or 1 2) ∧ decodeWord 0b1000_0001_0010_0010 = .ok (.and 1 2) ∧
    decodeWord 0b1000_0001_0010_0011 = .ok (.xor 1 2) := by decide
theorem test_decode_flagged : decodeWord 0b1000_0001_0010_0100 = .ok (.add 1 2) ∧
    decodeWord 0b1000_0001_0010_0101 = .ok (.subForward 1 2) ∧ decodeWord 0b1000_0001_0010_0111 = .ok (.subBackward 1 2) ∧
    decodeWord 0b1000_1010_1011_0110 = .ok (.shiftRight 10) ∧ decodeWord 0b1000_1010_0000_1110 = .ok (.shiftLeft 10) := by decide
theorem test_decode_draw : decodeWord 0b1101_1110_1010_1111 = .ok (.draw 14 10 15) ∧
    decodeWord 0b1101_0001_0010_0000 = .ok (.draw 1 2 0) := by decide
theorem test_decode_keys_and_timers : decodeWord 0b1110_0000_10011110 = .ok (.skipKeyPressed 0) ∧
    decodeWord 0b1110_1111_10100001 = .ok (.skipKeyNotPressed 15) ∧ decodeWord 0b1111_0001_00000111 = .ok (.loadDelay 1) ∧
    decodeWord 0b1111_0001_00001010 = .ok (.waitKey 1) ∧ decodeWord 0b1111_0001_00010101 = .ok (.storeDelay 1) ∧
    decodeWord 0b1111_0001_00011000 = .ok (.storeSound 1) := by decide
theorem test_decode_index : decodeWord 0b1111_0001_00011110 = .ok (.addToIndex 1) ∧
    decodeWord 0b1111_0101_00101001 = .ok (.fontChar 5) ∧ decodeWord 0b1111_0000_00110011 = .ok (.storeBCD 0) ∧
    decodeWord 0b1111_1111_01010101 = .ok (.storeRange 15) ∧ decodeWord 0b1111_0001_01100101 = .ok (.loadRange 1) := by decide
/-- The unrecognized words of 95_test_vectors.md 2.1. -/
theorem test_decode_unrecognized : [0x0000, 0x00E1, 0x01E0, 0x0123, 0x5121, 0x8008, 0x800D, 0x800F, 0x9AB1, 0xB123, 0xE09F,
    0xF100, 0xFFFF].map (decodeTableWord 16) = List.replicate 13 none := by decide
theorem test_decode_truncated : decodeBytes [0x00] = .error .truncated := by decide
theorem test_decode_bytes_big_endian : decodeBytes [0xA2, 0xE0, 0x77] = .ok (.loadIndex 0x2E0, [0x77]) := by decide

/-! ### Control transfer (95_test_vectors.md 2.3) -/

theorem test_return : (after (exec .ret ((testCpu []).setStack [0x204, 0x20A]))).pc = 0x204 ∧
    (after (exec .ret ((testCpu []).setStack [0x204, 0x20A]))).stack = [0x20A] := by decide
theorem test_return_empty : (testCycle (testProg [0x00EE])).halted = some ⟨.stackUnderflow, 0x200, some 0x00EE, none⟩ := by decide
theorem test_jump_below_the_program : (testCycle (testCycle (testProg [0x1100]))).halted =
    some ⟨.pcOutOfBounds, 0x100, none, none⟩ := by decide
theorem test_jump_odd_strict : (after (cycleWith true 60 exec 0 none (testCycle (testProg [0x1201])))).halted =
    some ⟨.pcMisaligned, 0x201, none, none⟩ := by decide
theorem test_call : (testCycle (testProg [0x2300])).pc = 0x300 ∧ (testCycle (testProg [0x2300])).stack = [0x202] := by decide
theorem test_call_full : (pushPcAndJump (some 1) 0x300 ((testCpu []).setStack [0x204])).halted.map (·.code) =
    some .stackOverflow := by decide
theorem test_skip_eq_imm : (after (exec (.skipEqImm 0 5) (testCpu [(0, 5)]))).pc = 0x204 ∧
    (after (exec (.skipEqImm 0 6) (testCpu [(0, 5)]))).pc = 0x202 := by decide
theorem test_skip_eq_imm_at_the_top : (after (exec (.skipEqImm 0 0) (testAt 0x1000 []))).pc = 0x1002 := by decide
theorem test_skip_neq_imm : (after (exec (.skipNeqImm 0 6) (testCpu [(0, 5)]))).pc = 0x204 := by decide
theorem test_skip_eq_reg_same : (after (exec (.skipEqReg 1 1) (testCpu [(1, 9)]))).pc = 0x204 := by decide
theorem test_skip_neq_reg : (after (exec (.skipNeqReg 1 2) (testCpu [(1, 0x10), (2, 0x11)]))).pc = 0x204 ∧
    (after (exec (.skipNeqReg 1 1) (testCpu [(1, 0x10)]))).pc = 0x202 := by decide

/-! ### ALU (95_test_vectors.md 2.2) -/

theorem test_load_imm : (testCycle (testProg [0x6A42])).getV 10 = 0x42 := by decide
theorem test_add_imm_wraps : (after (exec (.addImm 1 2) (testCpu [(1, 0xFF), (15, 0x55)]))).getV 1 = 1 ∧
    (after (exec (.addImm 1 2) (testCpu [(1, 0xFF), (15, 0x55)]))).getV VF = 0x55 := by decide
theorem test_move : (after (exec (.move 1 2) (testCpu [(2, 0x7F)]))).getV 1 = 0x7F := by decide
theorem test_or_same : (after (exec (.or 1 1) (testCpu [(1, 0x3C), (15, 0x55)]))).getV 1 = 0x3C := by decide
theorem test_and : (after (exec (.and 1 2) (testCpu [(1, 0xF0), (2, 0x3C), (15, 0x55)]))).getV 1 = 0x30 := by decide
theorem test_xor : (after (exec (.xor 1 2) (testCpu [(1, 0xFF), (2, 0x0F)]))).getV 1 = 0xF0 ∧
    (after (exec (.xor 1 1) (testCpu [(1, 0x3C)]))).getV 1 = 0 := by decide
theorem test_add : (after (exec (.add 1 2) (testCpu [(1, 0xFF), (2, 1)]))).getV 1 = 0 ∧
    (after (exec (.add 1 2) (testCpu [(1, 0xFF), (2, 1)]))).getV VF = 1 := by
  unfold exec execAdd; cases Config.vfWriteOrder <;> decide
theorem test_add_y_is_vf : (after (exec (.add 1 15) (testCpu [(1, 0x10), (15, 0xF0)]))).getV 1 = 0 ∧
    (after (exec (.add 1 15) (testCpu [(1, 0x10), (15, 0xF0)]))).getV VF = 1 := by
  unfold exec execAdd; cases Config.vfWriteOrder <;> decide
theorem test_sub_forward : (after (exec (.subForward 1 2) (testCpu [(1, 3), (2, 5)]))).getV 1 = 0xFE ∧
    (after (exec (.subForward 1 2) (testCpu [(1, 3), (2, 5)]))).getV VF = 0 := by
  unfold exec execSubForward; cases Config.vfWriteOrder <;> decide
theorem test_sub_forward_equal : (after (exec (.subForward 1 2) (testCpu [(1, 7), (2, 7)]))).getV VF = 1 := by
  unfold exec execSubForward; cases Config.vfWriteOrder <;> decide
theorem test_sub_backward : (after (exec (.subBackward 1 2) (testCpu [(1, 3), (2, 5)]))).getV 1 = 2 ∧
    (after (exec (.subBackward 1 2) (testCpu [(1, 3), (2, 5)]))).getV VF = 1 := by
  unfold exec execSubBackward; cases Config.vfWriteOrder <;> decide
/-- `8F15` with VF = 03 and V1 = 05, for either write order. -/
theorem test_write_order : (writeWithFlag .flagLast VF (3 - 5) (noBorrowFlag 3 5) (testCpu [])).getV VF = 0 ∧
    (writeWithFlag .resultLast VF (3 - 5) (noBorrowFlag 3 5) (testCpu [])).getV VF = 0xFE := by decide
theorem test_shift_right : (testCycle ((testProg [0x8126]).setV 1 1)).getV 1 = 0 ∧
    (testCycle (((testProg [0x8FF6]).setV 15 0x55))).getV VF = 0x2A := by decide
theorem test_shift_left : (after (exec (.shiftLeft 1) (testCpu [(1, 0x81), (15, 0x55)]))).getV 1 = 2 ∧
    (after (exec (.shiftLeft 1) (testCpu [(1, 0x81), (15, 0x55)]))).getV VF = 0x55 := by decide
theorem test_random_masks_and_advances : (after (exec (.random 1 0) (testCpu [(1, 0x77)]))).getV 1 = 0 ∧
    (after (exec (.random 1 0) (testCpu [(1, 0x77)]))).prng = (Config.prngNext 0).2 :=
  ⟨(getV_setV_self ..).trans (BitVec.and_zero ..), rfl⟩

/-! ### Index register and memory (95_test_vectors.md 2.4) -/

theorem test_load_index : (testCycle (testProg [0xA2E0])).index = 0x2E0 ∧ (testCycle (testProg [0xA2E0])).pc = 0x202 := by decide
theorem test_add_to_index_wraps : (after (exec (.addToIndex 1) ((testCpu [(1, 1)]).setIndex 0xFFFF))).index = 0 ∧
    (after (exec (.addToIndex 1) ((testCpu [(1, 1)]).setIndex 0xFFFF))).getV VF = 1 := by decide
theorem test_add_to_index_vf : (after (exec (.addToIndex 15) ((testCpu [(15, 1)]).setIndex 0x10))).index = 0x11 ∧
    (after (exec (.addToIndex 15) ((testCpu [(15, 1)]).setIndex 0x10))).getV VF = 0 := by decide
theorem test_font_char : (after (exec (.fontChar 5) (testCpu [(5, 0x0A)]))).index = 0x32 := by
  unfold exec execFontChar; cases Config.fontDigit <;> decide
theorem test_font_digit_above_nibble : glyphAddress .lowNibble 0x1A = 0x32 ∧ glyphAddress .full 0x1A = 0x82 := by decide
theorem test_store_bcd : (after (exec (.storeBCD 0) ((testCpu [(0, 0xFF)]).setIndex 0x300))).mem =
    [(0x300, 2), (0x301, 5), (0x302, 5)] := by decide
theorem test_store_bcd_out_of_bounds : (testCycle ((testProg [0xF033]).setIndex 0xFFE)).halted =
    some ⟨.memoryOutOfBounds, 0x200, some 0xF033, some 0x1000⟩ := by decide
theorem test_store_range : (after (exec (.storeRange 2) ((testCpu [(0, 0x11), (1, 0x22), (2, 0x33), (3, 0x44)]).setIndex 0x300))).mem =
    [(0x300, 0x11), (0x301, 0x22), (0x302, 0x33)] := by decide
theorem test_store_range_out_of_bounds : (after (exec (.storeRange 15) ((testCpu []).setIndex 0xFF1))).halted.bind (·.dataAddr) =
    some 0x1000 := by decide
theorem test_load_range : (after (exec (.loadRange 1) ((testCpu [(2, 0x77)]).testBytes 0x300 [0xAB, 0xCD]))).v.toList.take 3 =
    [0xAB, 0xCD, 0x77] := by decide
theorem test_load_range_out_of_bounds : (after (exec (.loadRange 0) ((testCpu []).setIndex 0xFFFF))).halted.bind (·.dataAddr) =
    some 0xFFFF := by decide

/-! ### Display (95_test_vectors.md 2.5) -/

theorem test_clear_screen : (after (exec .clearScreen ((testCpu []).present (Vector.replicate 64 (Vector.replicate 32 true))))).disp =
    Display.blank ∧ (testCycle (testProg [0x00E0])).redraw = true := by decide
theorem test_draw_anchor_wraps :
    displayPort (drawSprite true 0 1 1 ((testCpu [(0, 0x40), (1, 0x20)]).testBytes 0x300 [0x80])) 0 0 = some true := by decide
theorem test_draw_clips : [(62, 31), (63, 31), (61, 31), (62, 30), (0, 31), (62, 0)].map
      (fun p => displayPort (drawSprite true 1 2 2 ((testCpu [(1, 0x3E), (2, 0x1F)]).testBytes 0x300 [0xFF, 0xFF])) p.1 p.2) =
    [some true, some true, some false, some false, some false, some false] := by decide
theorem test_draw_twice_collides : (drawSprite true 0 1 1 (drawSprite true 0 1 1 ((testCpu []).testBytes 0x300 [0x80]))).getV VF = 1 ∧
    displayPort (drawSprite true 0 1 1 (drawSprite true 0 1 1 ((testCpu []).testBytes 0x300 [0x80]))) 0 0 = some false := by decide
theorem test_draw_empty : (drawSprite true 1 2 0 ((testCpu [(15, 0x55)]).setIndex 0xFFFF)).getV VF = 0 ∧
    (drawSprite false 1 2 0 ((testCpu [(15, 0x55)]).setIndex 0xFFFF)).getV VF = 0x55 ∧
    (drawSprite true 1 2 0 ((testCpu []).setIndex 0xFFFF)).redraw = true := by decide
theorem test_draw_out_of_bounds : (drawSprite true 0 1 2 ((testCpu []).setIndex 0xFFF)).halted.bind (·.dataAddr) = some 0x1000 := by
  decide

/-! ### Keys and timers (95_test_vectors.md 2.6) -/

theorem test_skip_key_pressed : (after (cycleWith false 60 exec 0 (some 5) ((testProg [0xE59E]).setV 5 5))).pc = 0x204 ∧
    (after (cycleWith false 60 exec 0 (some 5) ((testProg [0xE59E]).setV 5 0x15))).pc = 0x202 := by decide
theorem test_skip_key_not_pressed : (testCycle ((testProg [0xE5A1]).setV 5 5)).pc = 0x204 ∧
    (after (cycleWith false 60 exec 0 (some 5) ((testProg [0xE5A1]).setV 5 5))).pc = 0x202 := by decide
theorem test_wait_key : (testCycle (testProg [0xF30A])).pc = 0x200 ∧
    (after (cycleWith false 60 exec 0 (some 0xF) (testProg [0xF30A]))).getV 3 = 0xF := by decide
theorem test_store_delay : (testCycle ((testProg [0xF115]).setV 1 0x3C)).dt = 0x3C := by decide
theorem test_store_sound : (testCycle ((testProg [0xF118]).setV 1 5)).st = 5 := by decide
theorem test_load_delay_after_update : (after (cycleWith false 60 exec 1 none ((testProg [0xF107]).setDt 0x3C))).getV 1 = 0x3B := by decide
theorem test_timer_once_for_many_periods : (timerTick 60 5 { testCpu [] with dt := 2, lastTick := 1 }).dt = 1 ∧
    (timerTick 60 5 { testCpu [] with dt := 2, lastTick := 1 }).lastTick = 5 := by decide
theorem test_timer_milliseconds : (timerTick 1000 16 ((testCpu []).setDt 3)).dt = 3 ∧ (timerTick 1000 17 ((testCpu []).setDt 3)).dt = 2 ∧
    (timerTick 1000 17 (testCpu [])).st = 0 := by decide
theorem test_timer_backwards : (timerTick 60 4 { testCpu [] with dt := 3, lastTick := 10 }).dt = 3 := by decide

/-! ### The cycle, halts and reset (95_test_vectors.md 2.7 and 3) -/

theorem test_halted_cycle : (testCycle (testCycle (testProg [0x00EE]))).halted = some ⟨.stackUnderflow, 0x200, some 0x00EE, none⟩ ∧
    (testCycle (testCycle (testProg [0x00EE]))).redraw = false := by decide
theorem test_bounds_before_alignment : (after (cycleWith true 60 exec 0 none (testAt 0x1FF []))).halted =
    some ⟨.pcOutOfBounds, 0x1FF, none, none⟩ := by decide
theorem test_group_b_halts : (testCycle (testProg [0xB200])).halted = some ⟨.decodeFailure, 0x200, some 0xB200, none⟩ := by decide
theorem test_reset_loads_the_image : (applyReset 0 0 [0x12, 0x00] (testCpu [(3, 3)])).mem.fetch 0x200 = 0x1200 ∧
    (applyReset 0 0 [0x12, 0x00] (testCpu [(3, 3)])).getV 3 = 0 := by decide
theorem test_ports_after_reset : displayPort State.reset 63 31 = some false ∧ displayPort State.reset 64 0 = none ∧
    redrawPort State.reset = false ∧ haltedPort State.reset = none ∧ soundPort State.reset = 0 := by decide
theorem test_font_glyphs_default : Config.defaultFontGlyphs.length = 80 := by decide

/-! ### Witnesses: a concrete state and operands that meet each statement's hypotheses, clause by clause -/

/-- A state whose next event is a reset. -/
def testReset (image : List Byte) : State := { testProg [0x00EE] with events := [.reset 7 9 image] }

/-- A halted state with two cycles to come. -/
def testHalted : State :=
  { testCycle (testProg [0x00EE]) with events := [.cycle 1 none, .cycle 2 (some 3)] }

theorem testProg_fetchable (strict : Bool) (words : List Word) : Fetchable strict (testProg words).pc :=
  show Fetchable strict 0x200#16 from ⟨by decide, by decide, fun _ => by decide⟩

theorem witness_EncodeOfDecodeRestoresTheWord : decodeWord 0x8AB6 = .ok (.shiftRight 10) ∧
    decodeWord 0x8A0E = .ok (.shiftLeft 10) ∧ decodeWord 0xDEAF = .ok (.draw 14 10 15) := by decide
theorem witness_WordDecodesExactlyToItsTableRow : (⟨.shiftRight, 0x8006, 0xF00F⟩ : OpcodeRow) ∈ opcodeTable ∧
    0x8AB6#16 &&& 0xF00F#16 = 0x8006#16 := by decide
theorem witness_UnrecognizedExactlyOutsideTheTable : opField 0xB123 = 0xB#4 := by decide
theorem witness_StepRunsDecodedInstruction : nextEvent { testProg [0xA2E0] with events := [.cycle 5 none] } = .cycle 5 none ∧
    Running (testProg [0xA2E0]) ∧ Fetchable Config.pcAlignStrict (testProg [0xA2E0]).pc ∧
    decodeBytes [(testProg [0xA2E0]).mem.read 0x200, (testProg [0xA2E0]).mem.read 0x201] = .ok (.loadIndex 0x2E0, []) ∧
    (Instr.loadIndex 0x2E0).wellFormed = true := ⟨rfl, rfl, testProg_fetchable .., by decide, by decide⟩
theorem witness_FetchChecks_below : Running (testAt 0x1FF []) ∧ (testAt 0x1FF []).pc.toNat < 0x200 := by decide
theorem witness_FetchChecks_above : Running (testAt 0xFFF []) ∧ 0xFFE < (testAt 0xFFF []).pc.toNat := by decide
theorem witness_FetchChecks_odd : ∀ a ∈ [0x201, 0xFFD], Running (testAt (BitVec.ofNat 16 a) []) ∧
    0x200 ≤ (testAt (BitVec.ofNat 16 a) []).pc.toNat ∧ (testAt (BitVec.ofNat 16 a) []).pc.toNat ≤ 0xFFE ∧
    (testAt (BitVec.ofNat 16 a) []).pc.toNat % 2 = 1 := by decide
theorem witness_FetchChecks_fetchable : Fetchable true (testAt 0xFFE []).pc ∧ Fetchable false (testAt 0xFFD []).pc ∧
    (after (cycleWith true 60 exec 0 none (testAt 0xFFE []))).halted.isSome = true :=
  ⟨⟨by decide, by decide, fun _ => by decide⟩, ⟨by decide, by decide, nofun⟩, by decide⟩
theorem witness_FetchChecks_event : nextEvent { testProg [] with events := [.cycle 5 none] } = .cycle 5 none := rfl
theorem witness_UnrecognizedWordHalts : Running (testProg [0xB123]) ∧ Fetchable true (testProg [0xB123]).pc ∧
    decodeWord ((testProg [0xB123]).mem.fetch (testProg [0xB123]).pc) = .error (.unrecognized 0xB123) :=
  ⟨rfl, testProg_fetchable .., by decide⟩
theorem witness_HaltIsStickyUntilReset : testHalted.halted = some ⟨.stackUnderflow, 0x200, some 0x00EE, none⟩ ∧
    (∀ e ∈ testHalted.events, e.isReset = false) ∧
    nextEvent { testHalted with events := [.reset 7 9 []] } = .reset 7 9 [] := by decide
theorem witness_RedrawIffDrawOrClearScreen : nextEvent { testProg [0x00E0] with events := [.cycle 5 none] } = .cycle 5 none ∧
    Running (testProg [0x00E0]) ∧ Fetchable Config.pcAlignStrict (testProg [0x00E0]).pc ∧ assertsRedraw .clearScreen :=
  ⟨rfl, rfl, testProg_fetchable .., .inl rfl⟩
theorem witness_FirstFault_fetch : Running (testAt 0xFFF []) ∧ 0xFFE < (testAt 0xFFF []).pc.toNat ∧
    (after (cycleWith true 60 exec 0 none (testAt 0xFFF []))).halted = some ⟨.pcOutOfBounds, 0xFFF, none, none⟩ := by decide
theorem witness_FirstFault_alignment : Running (testAt 0x201 []) ∧ ¬ Fetchable true (testAt 0x201 []).pc ∧
    (after (cycleWith true 60 exec 0 none (testAt 0x201 []))).halted = some ⟨.pcMisaligned, 0x201, none, none⟩ :=
  ⟨rfl, fun h => absurd (h.2.2 rfl) (by decide), by decide⟩
theorem witness_FirstFault_decoding : Fetchable true (testProg []).pc ∧
    (∀ i, decodeWord ((testProg []).mem.fetch (testProg []).pc) ≠ .ok i) ∧
    (after (cycleWith true 60 exec 0 none (testProg []))).halted = some ⟨.decodeFailure, 0x200, some 0, none⟩ :=
  ⟨testProg_fetchable .., by
    rw [show decodeWord ((testProg []).mem.fetch (testProg []).pc) = .error (.unrecognized 0) by decide]
    nofun, by decide⟩
theorem witness_FirstFault_execution : decodeWord ((testProg [0x00EE]).mem.fetch (testProg [0x00EE]).pc) = .ok .ret ∧
    cycleWith true 60 exec 0 none (testProg [0x00EE]) = .next (after (cycleWith true 60 exec 0 none (testProg [0x00EE]))) ∧
    (after (cycleWith true 60 exec 0 none (testProg [0x00EE]))).halted = some ⟨.stackUnderflow, 0x200, some 0x00EE, none⟩ :=
  ⟨by decide, rfl, by decide⟩
theorem witness_FaultRecord_memory : Running ((testProg [0xF033]).setIndex 0xFFE) ∧
    (after (cycleWith true 60 exec 0 none ((testProg [0xF033]).setIndex 0xFFE))).halted =
      some ⟨.memoryOutOfBounds, 0x200, some 0xF033, some 0x1000⟩ := by decide
theorem witness_TimerUpdateFollowsThePeriod : (0 ≤ 1 ∧ 60 ≤ 60 * (1 - 0)) ∧
    (testCpu []).lastTick ≤ 1 ∧ 4 < State.lastTick { testCpu [] with lastTick := 10 } ∧
    60 * (16 - (testCpu []).lastTick) < 1000 := by decide
theorem witness_TimersFallAtMostOncePerPeriod : Running (testProg [0x6A42]) ∧
    step (testProg [0x6A42]) = .next (after (step (testProg [0x6A42]))) ∧ Running (after (step (testProg [0x6A42]))) ∧
    ∀ x, decodeWord ((testProg [0x6A42]).mem.fetch (testProg [0x6A42]).pc) ≠ .ok (.storeDelay x) ∧
      decodeWord ((testProg [0x6A42]).mem.fetch (testProg [0x6A42]).pc) ≠ .ok (.storeSound x) :=
  ⟨rfl, rfl, rfl, fun x => by
    rw [show decodeWord ((testProg [0x6A42]).mem.fetch (testProg [0x6A42]).pc) = .ok (.loadImm 10 0x42) by decide]
    exact ⟨nofun, nofun⟩⟩
theorem witness_TimerUpdateRunsBeforeExecution : Running (testProg [0xF107]) ∧
    decodeWord ((testProg [0xF107]).mem.fetch 0x200) = .ok (.loadDelay 1) ∧
    decodeWord ((testProg [0xF115]).mem.fetch 0x200) = .ok (.storeDelay 1) ∧
    decodeWord ((testProg [0xF118]).mem.fetch 0x200) = .ok (.storeSound 1) := by decide
theorem witness_ResetLeavesTheResetValues : nextEvent (testReset [0x12, 0x00]) = .reset 7 9 [0x12, 0x00] := rfl
theorem witness_EmptyImageHaltsInTheFirstCycle : nextEvent (testReset []) = .reset 7 9 [] ∧
    nextEvent (applyReset 7 9 [] (takeEvent { testReset [] with events := [.reset 7 9 [], .cycle 3 none] })) = .cycle 3 none :=
  ⟨rfl, rfl⟩
theorem witness_StepKeepsMemoryCanonical : MemoryCanonical ((testProg [0xF033]).setIndex 0xFFD) ∧
    step ((testProg [0xF033]).setIndex 0xFFD) = .next (after (step ((testProg [0xF033]).setIndex 0xFFD))) := ⟨by decide, rfl⟩
theorem witness_StepKeepsPcBounded : PcBounded ((testAt 0xFFE []).setStack [0x202, 0x1000]) ∧
    step ((testAt 0xFFE []).setStack [0x202, 0x1000]) = .next (after (step ((testAt 0xFFE []).setStack [0x202, 0x1000]))) :=
  ⟨fun _ => ⟨by decide, fun a ha => by
    have h : a ∈ [0x202#16, 0x1000#16] := ha
    simp only [List.mem_cons, List.not_mem_nil, or_false] at h
    rcases h with rfl | rfl <;> decide⟩, rfl⟩
theorem witness_InstructionsWriteOnlyTheirOwn : Running (testCpu []) ∧
    exec (.loadRange 2) (testCpu []) = .next (after (exec (.loadRange 2) (testCpu []))) ∧
    Running (after (exec (.loadRange 2) (testCpu []))) ∧ mayWriteReg (.loadRange 2) 3 = false := ⟨rfl, rfl, rfl, rfl⟩
theorem witness_InstructionsHaltOnlyWithTheirFault : Running (testCpu []) ∧
    exec .ret (testCpu []) = .next (after (exec .ret (testCpu []))) ∧
    (after (exec .ret (testCpu []))).halted = some ⟨.stackUnderflow, 0, some 0, none⟩ := ⟨rfl, rfl, rfl⟩
theorem witness_NoInstructionReadsTheSoundTimer :
    exec (.storeSound 1) (testCpu []) = .next (after (exec (.storeSound 1) (testCpu []))) ∧
    Running (after (exec (.storeSound 1) (testCpu []))) := ⟨rfl, rfl⟩
theorem witness_NoInstructionReadsTheSoundTimer_halt :
    exec .ret (testCpu []) = .next (after (exec .ret (testCpu []))) ∧
    (after (exec .ret (testCpu []))).halted = some ⟨.stackUnderflow, 0, some 0, none⟩ := ⟨rfl, rfl⟩
theorem witness_ReturnPopsOrHalts : ((testCpu []).setStack [0x204, 0x20A]).stack = 0x204 :: [0x20A] ∧ (testCpu []).stack = [] := by
  decide
theorem witness_CallPushesAndJumps : ((testCpu []).setStack [0x204]).stack.length = 1 ∧ (testCpu []).stack.length ≠ 1 := by decide
theorem witness_SkipsCompareWithTheImmediate : (testCpu [(0, 5)]).getV 0 = 5 ∧ (testCpu [(0, 5)]).getV 0 ≠ 6 := by decide
theorem witness_SkipsCompareTwoRegisters : (testCpu [(1, 2)]).getV 1 ≠ (testCpu [(1, 2)]).getV 2 ∧
    (testCpu []).getV 1 = (testCpu []).getV 2 ∧ (1#4 : Nibble) ≠ 0 := by decide
theorem witness_flagged_register_is_vf_or_not : (1 : Reg) ≠ VF ∧ (15 : Reg) = VF := by decide
theorem witness_FontCharPointsAtTheGlyph : ((testCpu [(5, 0x0F)]).getV 5).toNat ≤ 0xF := by decide
theorem witness_StoreBCDWritesThreeDigits : MemoryCanonical (testCpu []) ∧ ((testCpu []).setIndex 0xFFD).index.toNat + 2 < 4096 ∧
    4096 ≤ ((testCpu []).setIndex 0xFFE).index.toNat + 2 := by decide
theorem witness_range_in_and_out_of_bounds : MemoryCanonical (testCpu []) ∧
    ((testCpu []).setIndex 0xFF0).index.toNat + (15 : Reg).val < 4096 ∧
    4096 ≤ ((testCpu []).setIndex 0xFF1).index.toNat + (15 : Reg).val ∧ (14 : Reg) ≤ 15 ∧ (0 : Reg) < 15 := by decide
theorem witness_StoredBytesAreFetched_range : MemoryCanonical (testCpu []) ∧ (14 : Reg).val + 1 ≤ (15 : Reg).val ∧
    ((testCpu []).setIndex 0xFF0).index.toNat + (15 : Reg).val < 4096 := by decide
/-- In bounds for StoreBCD VF, though not for StoreRange VF. -/
theorem witness_StoredBytesAreFetched_bcd : MemoryCanonical (testCpu []) ∧ ((testCpu []).setIndex 0xFFD).index.toNat + 2 < 4096 ∧
    4096 ≤ ((testCpu []).setIndex 0xFFD).index.toNat + (15 : Reg).val := by decide
theorem witness_Draw_bounds : (0#4).toNat = 0 ∧ ((testCpu []).setIndex 0xFF1).index.toNat + (15#4).toNat ≤ 4096 ∧
    (15#4).toNat ≠ 0 ∧ 4096 < ((testCpu []).setIndex 0xFF2).index.toNat + (15#4).toNat := by decide
/-- A set pixel on the grid's last cell, on a lit cell there and on a cell that is not lit. -/
theorem witness_Draw_cells :
    spriteCovers ((testCpu [(1, 0x3E), (2, 0x1F)]).testBytes 0x300 [0xFF]) 1 2 1 63 31 ∧
    ((testCpu []).present (Vector.replicate 64 (Vector.replicate 32 true))).disp[63][31] = true ∧
    (testCpu []).disp[63][31] = false := by
  unfold spriteCovers; decide
theorem witness_Draw_no_cell : ¬ ∃ c r, ∃ (hc : c < 64) (hr : r < 32),
    spriteCovers ((testCpu []).testBytes 0x300 [0xFF]) 1 2 0 c r ∧ ((testCpu []).testBytes 0x300 [0xFF]).disp[c][r] = true :=
  fun ⟨_, r, _, _, h, _⟩ => by
    obtain ⟨_, _, h1, h2, _⟩ := h
    exact absurd h2 (by simpa using h1)
theorem witness_DrawTwiceRestoresTheDisplay :
    ((testCpu []).testBytes 0x300 [0x80]).index.toNat + (1#4).toNat ≤ 4096 ∧
    ((drawSprite true 1 2 1 ((testCpu []).testBytes 0x300 [0x80])).getV 1 = ((testCpu []).testBytes 0x300 [0x80]).getV 1) ∧
    (drawSprite true 1 2 1 ((testCpu []).testBytes 0x300 [0x80])).index = ((testCpu []).testBytes 0x300 [0x80]).index ∧
    (drawSprite true 1 2 1 ((testCpu []).testBytes 0x300 [0x80])).mem = ((testCpu []).testBytes 0x300 [0x80]).mem := by decide
theorem witness_WaitKeySpinsOrStores : (testCpu []).key = none ∧ State.key { testCpu [] with key := some 0xF } = some 0xF := by decide
theorem witness_KeySkipsCompareWithTheSample : ∃ k : Key, State.key { testCpu [(5, 5)] with key := some 5 } = some k ∧
    (State.getV { testCpu [(5, 5)] with key := some 5 } 5).toNat = k.toNat := ⟨5, by decide⟩
theorem witness_PlacedWordRunsNext : MemoryCanonical State.reset ∧ decodeTableWord 16 0xA2E0 = some (.loadIndex 0x2E0) := by decide

end Sys2Proof.Machine
end

/-! PROOFS. The family 10_state.md. `exec_eq` says once what an instruction does, its own fault or its completion; the frame, the
canonical memory and the blindness to the sound timer are facts about the completion, and each claim about a step is derived from them. -/

namespace Sys2Proof.Machine

/-! ### What an instruction does: its own fault, or its completion -/

/-- R69: the bounds fault of a transfer of `n` bytes from `I` on. -/
def spanFault (s : State) (n : Nat) : Option (Fault × Option Nat) :=
  (firstOutOfBounds s.index.toNat n).map fun bad => (.memoryOutOfBounds, some bad)

/-- R255: the fault of its own an instruction meets, with the record's data address. -/
def ownFault (i : Instr) (s : State) : Option (Fault × Option Nat) :=
  match i with
  | .ret => if s.stack = [] then some (.stackUnderflow, none) else none
  | .storeBCD _ => spanFault s 3
  | .storeRange x | .loadRange x => spanFault s (x.val + 1)
  | .draw _ _ n => spanFault s n.toNat
  | _ => none

/-- The state after an instruction that meets no fault: for the five that may meet one, the state past the check; for the others,
what `exec` answers. -/
def completion (i : Instr) (s : State) : State :=
  match i with
  | .ret => (s.setStack s.stack.tail).setPc (s.stack.headD 0)
  | .storeBCD x => s.setMem (s.mem.writeBytes s.index.toNat (bcdDigits (s.getV x)))
  | .storeRange x => s.setMem (s.mem.writeBytes s.index.toNat (regsUpTo s x))
  | .loadRange x => s.setRegs (loadRegs s.mem s.index.toNat x s.v)
  | .draw x y n =>
    writeCollision Config.drawCollisionVf (composeSprite s x y n).2 (s.present (composeSprite s x y n).1)
  | i =>
    match exec i s with
    | .next t => t
    | .fault _ | .refused _ => s

/-- The fatal halt for a fault, the state `done` where there is none. -/
def haltOr (f : Option (Fault × Option Nat)) (s done : State) : State :=
  match f with
  | some (code, dataAddr) => raiseAtExecute code dataAddr s
  | none => done

@[simp] theorem haltOr_none (s done : State) : haltOr none s done = done := rfl
@[simp] theorem haltOr_some (code : Fault) (dataAddr : Option Nat) (s done : State) :
    haltOr (some (code, dataAddr)) s done = raiseAtExecute code dataAddr s := rfl

theorem withSpan_eq_haltOr (n : Nat) (s done : State) :
    withSpan s.index.toNat n s done = haltOr (spanFault s n) s done := by
  unfold withSpan spanFault
  cases firstOutOfBounds s.index.toNat n <;> rfl

theorem popPc_eq_haltOr (s : State) : popPc s = haltOr (ownFault .ret s) s (completion .ret s) := by
  cases h : s.stack with
  | nil => simp [popPc_nil h, ownFault, h]
  | cons top rest => simp [popPc_cons h, ownFault, completion, h]

/-- R128: an instruction takes the fatal halt where it meets its own fault, and completes where not. -/
theorem exec_eq (i : Instr) (s : State) : exec i s = .next (haltOr (ownFault i s) s (completion i s)) := by
  cases i with
  | ret => exact congrArg _ (popPc_eq_haltOr s)
  | storeBCD | storeRange | loadRange | draw => exact congrArg _ (withSpan_eq_haltOr ..)
  | _ => rfl

theorem exec_cases {i : Instr} {s t : State} (h : exec i s = .next t) :
    (ownFault i s = none ∧ t = completion i s) ∨
    ∃ code dataAddr, ownFault i s = some (code, dataAddr) ∧ t = raiseAtExecute code dataAddr s := by
  rw [exec_eq] at h
  injection h with h
  cases hf : ownFault i s with
  | none => exact .inl ⟨rfl, by rw [← h, hf, haltOr_none]⟩
  | some f => exact .inr ⟨f.1, f.2, rfl, by rw [← h, hf, haltOr_some]⟩

/-- A fatal halt does not run, so an instruction that leaves the CORE running has completed. -/
theorem eq_completion_of_running {i : Instr} {s t : State} (h : exec i s = .next t) (ht : Running t) :
    t = completion i s := by
  obtain ⟨_, h⟩ | ⟨code, dataAddr, _, rfl⟩ := exec_cases h
  · exact h
  · cases ht

/-! ### The frame of a completion -/

theorem awaitKey_cases (x : Reg) (s : State) : awaitKey x s = rewindPc s ∨ ∃ b, awaitKey x s = s.setV x b := by
  unfold awaitKey
  cases s.key with
  | none => exact .inl rfl
  | some k => exact .inr ⟨keyByte k, rfl⟩

theorem completion_frame (i : Instr) (s : State) : OnlyChanges (mayWrite i) s (completion i s) := by
  cases i with
  | clearScreen => exact present_frame s _
  | ret | call => exact stackThenPc_frame s _ _
  | jump => exact setPc_frame s _
  | skipEqImm | skipNeqImm | skipEqReg | skipNeqReg | skipKeyPressed | skipKeyNotPressed => exact skipIf_frame s _
  | loadImm | addImm | move | or | and | xor | shiftRight | shiftLeft | loadDelay => exact setV_frame s _ _
  | add | subForward | subBackward => exact writeWithFlag_frame s _ _ _ _
  | loadRange => exact setRegs_frame s _
  | loadIndex | fontChar => exact setIndex_frame s _
  | addToIndex => exact ((setIndex_frame s _).mono (by simp [mayWrite])).trans ((setV_frame _ _ _).mono (by simp [mayWrite]))
  | random => exact ((setPrng_frame s _).mono (by simp [mayWrite])).trans ((setV_frame _ _ _).mono (by simp [mayWrite]))
  | draw =>
    exact ((present_frame s _).mono (by simp [mayWrite])).trans ((writeCollision_frame _ _ _).mono (by simp [mayWrite]))
  | waitKey x =>
    show OnlyChanges _ s (awaitKey x s)
    obtain h | ⟨b, h⟩ := awaitKey_cases x s
    · rw [h]; exact (rewindPc_frame s).mono (by simp [mayWrite])
    · rw [h]; exact (setV_frame s x b).mono (by simp [mayWrite])
  | storeDelay => exact setDt_frame s _
  | storeSound => exact setSt_frame s _
  | storeBCD | storeRange => exact setMem_frame s _

theorem completion_getV {i : Instr} {r : Reg} (h : mayWriteReg i r = false) (s : State) :
    (completion i s).getV r = s.getV r := by
  cases i with
  | loadImm | addImm | move | or | and | xor | shiftRight | shiftLeft | loadDelay =>
    exact getV_setV_ne s _ (of_decide_eq_false h)
  | random => exact getV_setV_ne (s.setPrng _) _ (of_decide_eq_false h)
  | addToIndex => exact getV_setV_ne (s.setIndex _) _ (of_decide_eq_false h)
  | add | subForward | subBackward => exact writeWithFlag_onlyRegs s _ _ _ _ r (by simpa [mayWriteReg] using h)
  | draw =>
    refine (writeCollision_getV (s.present _) _ _ r).trans (if_neg ?_)
    simpa [mayWriteReg] using h
  | waitKey x =>
    show (awaitKey x s).getV r = s.getV r
    obtain h' | ⟨b, h'⟩ := awaitKey_cases x s
    · rw [h']; rfl
    · rw [h']; exact getV_setV_ne s b (of_decide_eq_false h)
  | loadRange x => exact (loadRegs_get s.mem s.index.toNat x s.v r).trans (if_neg (of_decide_eq_false h))
  | _ => rfl

/-- Settles O26: an instruction that leaves the CORE running has completed, and the completion has that frame. -/
theorem instructionsWriteOnlyTheirOwn : Obligations.InstructionsWriteOnlyTheirOwn := by
  intro i s t _ h ht
  rw [eq_completion_of_running h ht]
  exact ⟨completion_frame i s, fun r hr => completion_getV hr s⟩

/-! ### Canonical memory -/

/-- The two stores write in bounds where they meet no fault; no other instruction writes memory. -/
theorem completion_wf {i : Instr} {s : State} (hf : ownFault i s = none) (hm : MemoryCanonical s) :
    MemoryCanonical (completion i s) := by
  have inBounds {n : Nat} (h : spanFault s (n + 1) = none) : s.index.toNat + (n + 1) ≤ Config.memSize :=
    firstOutOfBounds_eq_none.mp (Option.map_eq_none_iff.mp h) n (Nat.lt_succ_self n)
  cases i with
  | storeBCD => exact Memory.wf_writeBytes hm _ (inBounds hf)
  | storeRange x => exact Memory.wf_writeBytes hm _ (regsUpTo_length s x ▸ inBounds hf)
  | waitKey x =>
    show (awaitKey x s).mem.wf = true
    obtain h | ⟨b, h⟩ := awaitKey_cases x s
    · rw [h]; exact hm
    · rw [h]; exact hm
  | _ => exact hm

theorem exec_wf {i : Instr} {s t : State} (h : exec i s = .next t) (hm : MemoryCanonical s) : MemoryCanonical t := by
  obtain ⟨hf, rfl⟩ | ⟨code, dataAddr, _, rfl⟩ := exec_cases h
  · exact completion_wf hf hm
  · exact raiseFatal_wf ..

theorem cycle_wf {now : Nat} {key : Option Key} {s t : State} {alignStrict : Bool} {units : Nat}
    (h : cycleWith alignStrict units exec now key s = .next t) (hm : MemoryCanonical s) : MemoryCanonical t := by
  obtain ⟨_, e⟩ | ⟨_, code, _, e⟩ | ⟨_, _, _, e⟩ | ⟨_, _, i, _, e⟩ := cycleWith_cases alignStrict units exec now key s
  · cases e.symm.trans h; exact hm
  · cases e.symm.trans h; exact raiseFatal_wf ..
  · cases e.symm.trans h; exact raiseFatal_wf ..
  · exact exec_wf (e.symm.trans h) hm

/-- Settles O23: a cycle by the cases of `cycleWith_cases`, a reset because the image is loaded in bounds. -/
theorem stepKeepsMemoryCanonical : Obligations.StepKeepsMemoryCanonical := by
  intro s t hm h
  cases he : nextEvent s with
  | cycle now key => exact cycle_wf ((step_cycle he).symm.trans h) hm
  | reset seed t0 image =>
    cases (step_reset he).symm.trans h
    exact wf_loadImage rfl image

/-- Settles O22: each clause is read off the reset value; its stack is empty. -/
theorem invariantsHoldAtReset : Obligations.InvariantsHoldAtReset := by
  have bounded : PcBounded State.reset := fun _ => ⟨by decide, by simp [State.reset]⟩
  exact ⟨rfl, bounded, rfl, rfl⟩

/-! ### The sound timer is not read -/

theorem ownFault_setSt (i : Instr) (s : State) (b : Byte) : ownFault i (s.setSt b) = ownFault i s := by
  cases i <;> rfl

theorem completion_setSt (i : Instr) (s : State) (b : Byte) :
    (completion i (s.setSt b)).setSt 0 = (completion i s).setSt 0 := by
  cases i with
  | waitKey x =>
    show (awaitKey x (s.setSt b)).setSt 0 = (awaitKey x s).setSt 0
    unfold awaitKey
    rw [State.setSt_key]
    cases s.key <;> rfl
  | _ => rfl

/-- Settles O28: neither the fault nor the completion depends on the sound timer, and the fatal halt overwrites it. -/
theorem noInstructionReadsTheSoundTimer : Obligations.NoInstructionReadsTheSoundTimer := by
  intro i s t b h
  refine ⟨_, exec_eq i (s.setSt b), ?_⟩
  rw [ownFault_setSt]
  obtain ⟨hf, rfl⟩ | ⟨code, dataAddr, hf, rfl⟩ := exec_cases h
  · rw [hf, haltOr_none]
    have e := completion_setSt i s b
    exact ⟨by simpa using congrArg State.halted e, by simpa using congrArg State.redraw e, fun _ => e⟩
  · rw [hf, haltOr_some]
    exact ⟨rfl, rfl, fun _ => rfl⟩

/-! ### The timers -/

theorem timerTick_frame (units now : Nat) (s : State) : OnlyChanges [.dt, .st, .lastTick] s (timerTick units now s) := by
  refine ⟨fun e he => ?_, rfl, rfl, rfl, rfl, rfl⟩
  cases e with
  | dt | st | lastTick => simp at he
  | v | mem => exact fun _ => rfl
  | _ => rfl

/-- Settles O17, by whether the update is due. -/
theorem timerUpdateFollowsThePeriod : Obligations.TimerUpdateFollowsThePeriod := by
  intro units now s
  refine ⟨fun hl hu => ?_, fun hl => timerTick_notDue ?_, fun hu => timerTick_notDue ?_⟩
  · have due := tickDue_iff.mpr ⟨hl, hu⟩
    refine ⟨?_, ?_, if_pos due, timerTick_frame units now s⟩
    · rw [← countDown_toNat]; exact congrArg BitVec.toNat (if_pos due)
    · rw [← countDown_toNat]; exact congrArg BitVec.toNat (if_pos due)
  · rw [← Bool.not_eq_true, tickDue_iff]; omega
  · rw [← Bool.not_eq_true, tickDue_iff]; omega

theorem countDown_cases (b : Byte) : countDown b = b ∨ (countDown b).toNat + 1 = b.toNat := by
  rw [← BitVec.toNat_inj, countDown_toNat]
  omega

/-- R259, R261: a timer through the update of a cycle, against the baseline through it. -/
theorem timer_update_cases (units now lastTick : Nat) (b : Byte) :
    (if tickDue units now lastTick then countDown b else b) = b ∨
    ((if tickDue units now lastTick then countDown b else b).toNat + 1 = b.toNat ∧
      (if tickDue units now lastTick then now else lastTick) = now ∧ lastTick ≤ now ∧ units ≤ 60 * (now - lastTick)) := by
  split
  · next due => exact (countDown_cases b).imp id fun h => ⟨h, rfl, tickDue_iff.mp due⟩
  · exact .inl rfl

/-- A step of a cycle that starts and ends running completes the decoded instruction in the state the cycle has begun with. -/
theorem step_completes {s t : State} {now : Nat} {key : Option Key} (he : nextEvent s = .cycle now key) (hs : Running s)
    (h : step s = .next t) (ht : Running t) :
    ∃ i, decodeWord (s.mem.fetch s.pc) = .ok i ∧
      t = completion i (beginCycle Config.timeUnitsPerSecond now key (takeEvent s)) := by
  rw [step_cycle he] at h
  obtain ⟨hh, _⟩ | ⟨_, code, _, e⟩ | ⟨_, _, _, e⟩ | ⟨_, _, i, hd, e⟩ := cycleWith_cases Config.pcAlignStrict
    Config.timeUnitsPerSecond exec now key (takeEvent s)
  · exact absurd hs hh
  · cases e.symm.trans h; cases ht
  · cases e.symm.trans h; cases ht
  · exact ⟨i, hd, eq_completion_of_running (e.symm.trans h) ht⟩

theorem lastTick_notMem_mayWrite (i : Instr) : .lastTick ∉ mayWrite i := by
  cases i <;> simp [mayWrite]

theorem dt_mem_mayWrite {i : Instr} (h : .dt ∈ mayWrite i) : ∃ x, i = .storeDelay x := by
  cases i with
  | storeDelay x => exact ⟨x, rfl⟩
  | _ => simp [mayWrite] at h

theorem st_mem_mayWrite {i : Instr} (h : .st ∈ mayWrite i) : ∃ x, i = .storeSound x := by
  cases i with
  | storeSound x => exact ⟨x, rfl⟩
  | _ => simp [mayWrite] at h

/-- Settles O18: the instruction leaves the baseline, and the timers it does not set, as the cycle's update left them. -/
theorem timersFallAtMostOncePerPeriod : Obligations.TimersFallAtMostOncePerPeriod := by
  intro s t now key he hs h ht
  obtain ⟨i, hd, rfl⟩ := step_completes he hs h ht
  obtain ⟨frame, _⟩ := completion_frame i (beginCycle Config.timeUnitsPerSecond now key (takeEvent s))
  have hlast := frame .lastTick (lastTick_notMem_mayWrite i)
  refine ⟨?_, fun hi => ?_, fun hi => ?_⟩
  · rw [hlast, beginCycle_lastTick]
    split
    · next due => exact .inr ⟨rfl, tickDue_iff.mp due⟩
    · exact .inl rfl
  · have hdt := frame .dt fun hw => (dt_mem_mayWrite hw).elim fun x e => hi x (e ▸ hd)
    rw [hdt, hlast]
    exact timer_update_cases Config.timeUnitsPerSecond now s.lastTick s.dt
  · have hst := frame .st fun hw => (st_mem_mayWrite hw).elim fun x e => hi x (e ▸ hd)
    rw [hst, hlast]
    exact timer_update_cases Config.timeUnitsPerSecond now s.lastTick s.st

end Sys2Proof.Machine

/-! PROOFS. The family 20_memory.md. A word that begins at a byte of a transfer is fetched as two of its bytes, or, at the last one, as
that byte and the byte after the transfer; the two stores are transfers of `regsUpTo` and of `bcdDigits` where they complete. -/

namespace Sys2Proof.Machine

/-! ### A fetch after a transfer -/

/-- D1: the word fetched `k` past an address, where that address does not wrap. -/
theorem Memory.fetch_add (m : Memory) {a : Word} {k : Nat} (h : a.toNat + k < 65536) :
    m.fetch (a + BitVec.ofNat 16 k) = wordOfBytes (m.read (a.toNat + k)) (m.read (a.toNat + k + 1)) := by
  have e : (a + BitVec.ofNat 16 k).toNat = a.toNat + k := by
    rw [BitVec.toNat_add, BitVec.toNat_ofNat, Nat.add_mod_mod, Nat.mod_eq_of_lt h]
  unfold Memory.fetch wordOfBytes
  rw [e]

section
variable {m : Memory} (hm : m.wf = true) {bs : List Byte}
include hm

theorem Memory.read_writeBytes_inside {a k : Nat} (hb : a + bs.length ≤ Config.memSize) (hk : k < bs.length) :
    (m.writeBytes a bs).read (a + k) = bs.getD k 0 := by
  rw [Memory.read_writeBytes hm a bs hb, if_pos ⟨by omega, by omega⟩, Nat.add_sub_cancel_left]

theorem Memory.read_writeBytes_outside {a a' : Nat} (hb : a + bs.length ≤ Config.memSize)
    (h : a' < a ∨ a + bs.length ≤ a') : (m.writeBytes a bs).read a' = m.read a' := by
  rw [Memory.read_writeBytes hm a bs hb, if_neg (by omega)]

variable {a : Word} (hb : a.toNat + bs.length ≤ Config.memSize) {k : Nat}
include hb

/-- R76: a word both of whose bytes the transfer wrote. -/
theorem Memory.fetch_writeBytes_inside (hk : k + 1 < bs.length) :
    (m.writeBytes a.toNat bs).fetch (a + BitVec.ofNat 16 k) = wordOfBytes (bs.getD k 0) (bs.getD (k + 1) 0) := by
  have room : a.toNat + bs.length ≤ 4096 := hb
  rw [Memory.fetch_add _ (by omega), Memory.read_writeBytes_inside hm hb (by omega), Nat.add_assoc,
    Memory.read_writeBytes_inside hm hb hk]

/-- R76: the word that begins at the transfer's last byte. -/
theorem Memory.fetch_writeBytes_last (hk : bs.length = k + 1) :
    (m.writeBytes a.toNat bs).fetch (a + BitVec.ofNat 16 k) = wordOfBytes (bs.getD k 0) (m.read (a.toNat + k + 1)) := by
  have room : a.toNat + bs.length ≤ 4096 := hb
  rw [Memory.fetch_add _ (by omega), Memory.read_writeBytes_inside hm hb (by omega),
    Memory.read_writeBytes_outside hm hb (.inr (by omega))]

end

/-! ### The two stores, in bounds -/

/-- R194: StoreRange completes where its last byte is in bounds. -/
theorem exec_storeRange_inBounds {x : Reg} {s : State} (h : s.index.toNat + x.val < 4096) :
    exec (.storeRange x) s = .next (s.setMem (s.mem.writeBytes s.index.toNat (regsUpTo s x))) :=
  congrArg _ (withSpan_inBounds (fun k hk => show s.index.toNat + k < 4096 by omega) s _)

/-- R193: StoreBCD completes where its last byte is in bounds. -/
theorem exec_storeBCD_inBounds {x : Reg} {s : State} (h : s.index.toNat + 2 < 4096) :
    exec (.storeBCD x) s = .next (s.setMem (s.mem.writeBytes s.index.toNat (bcdDigits (s.getV x)))) :=
  congrArg _ (withSpan_inBounds (fun k hk => show s.index.toNat + k < 4096 by omega) s _)

/-- Settles O48: each store's words by `fetch_writeBytes_inside`, but for the last by `fetch_writeBytes_last`. -/
theorem storedBytesAreFetched : Obligations.StoredBytesAreFetched := by
  intro x s hm
  refine ⟨fun h => ?_, fun h => ?_⟩
  · have len := regsUpTo_length s x
    have hb : s.index.toNat + (regsUpTo s x).length ≤ Config.memSize := by rw [len]; exact h
    refine ⟨_, exec_storeRange_inBounds h, fun r hr => ?_, ?_⟩
    · rw [State.setMem_mem, Memory.fetch_writeBytes_inside hm hb (k := r.val) (by omega),
        regsUpTo_getD s x r (Fin.le_def.mpr (by omega)), regsUpTo_getD s x ⟨r.val + 1, _⟩ hr]
    · rw [State.setMem_mem, Memory.fetch_writeBytes_last hm hb len, regsUpTo_getD s x x le_rfl]
  · have hb : s.index.toNat + (bcdDigits (s.getV x)).length ≤ Config.memSize := h
    have inside {k : Nat} (hk : k + 1 < 3) := Memory.fetch_writeBytes_inside hm hb (k := k) hk
    have first := inside (k := 0) (by decide)
    rw [BitVec.ofNat_eq_ofNat, BitVec.add_zero] at first
    exact ⟨_, exec_storeBCD_inBounds h, first, inside (k := 1) (by decide), Memory.fetch_writeBytes_last hm hb (k := 2) rfl⟩

end Sys2Proof.Machine

/-! PROOFS. The family 30_encoding.md. The opcode table is the specification of the decoder: a word that a row covers decodes to the row's
instruction with the word's own fields (`decodeWord_of_covers`), and nothing else decodes (`DecodedFromTable.of_decodeWord`). The claims
about the decoder follow from these two and from the decoding of an encoded instruction (`decodeWord_encode`). A claim about a single
instruction takes its decoding from `decodeWord_encode` and its effect from the rule of the setter or transfer that the instruction is. -/

namespace Sys2Proof

/-! ### Decoding an encoded instruction -/

/-- R92: each format gives back the fields it was built from. -/
theorem decodeWord_encode (i : Instr) : decodeWord (encode i) = .ok i := by
  cases i with
  | clearScreen | ret => decide
  | jump | call | loadIndex => simp [encode, decodeWord]
  | skipEqImm | skipNeqImm | loadImm | addImm | random => simp [encode, decodeWord]
  | skipEqReg | skipNeqReg | draw => simp [encode, decodeWord]
  | move | or | and | xor | add | subForward | shiftRight | subBackward | shiftLeft => simp [encode, decodeWord, decodeGroup8]
  | skipKeyPressed | skipKeyNotPressed => simp [encode, decodeWord, decodeGroupE]
  | loadDelay | waitKey | storeDelay | storeSound | addToIndex | fontChar | storeBCD | storeRange | loadRange =>
    simp [encode, decodeWord, decodeGroupF]

/-- R60: the decoder on a word's bytes is the decoder on the word. -/
theorem decodeBytes_bytesOfWord (w : Word) (rest : List Byte) :
    decodeBytes (bytesOfWord w ++ rest) = (decodeWord w).map fun i => (i, rest) := by
  show (decodeWord (wordOfBytes _ _)).map (fun i => (i, rest)) = _
  rw [wordOfBytes_bytesOfWord]

/-- Settles O1: `decodeWord_encode`, carried over to bytes by `decodeBytes_bytesOfWord`. -/
theorem decodeOfEncodeIsIdentity : Obligations.DecodeOfEncodeIsIdentity := by
  intro i rest
  refine ⟨wellFormed_instr i, decodeWord_encode i, ?_⟩
  rw [decodeBytes_bytesOfWord, decodeWord_encode]
  rfl

/-! ### The row of a tag -/

/-- R96: the row of the opcode table for a tag. -/
def Tag.row (t : Tag) : OpcodeRow := (opcodeTable.find? (·.tag = t)).getD ⟨t, 0, 0⟩

/-- The lookup never fails. -/
theorem Tag.row_mem (t : Tag) : t.row ∈ opcodeTable := by cases t <;> decide

theorem Tag.tag_row (t : Tag) : t.row.tag = t := by cases t <;> rfl

/-- R96: the table holds one row per tag. -/
theorem eq_row_of_mem {row : OpcodeRow} (h : row ∈ opcodeTable) : row = row.tag.row := by
  revert row; decide

/-- R96: whether a word is an instruction of the tag. -/
def Tag.Covers (t : Tag) (w : Word) : Prop := w &&& t.row.mask = t.row.pattern

theorem covers_tag_iff {row : OpcodeRow} (h : row ∈ opcodeTable) (w : Word) :
    row.tag.Covers w ↔ w &&& row.mask = row.pattern := by
  rw [Tag.Covers, ← eq_row_of_mem h]

section
variable {t : Tag} {w : Word} (h : t.Covers w)
include h

theorem nib_of_covers {index width : Nat} {valid : 0 < width ∧ index + width ≤ 4}
    (hm : nib t.row.mask index width valid = BitVec.allOnes (4 * width)) :
    nib w index width valid = nib t.row.pattern index width valid := by
  have e := congrArg (nib · index width valid) h
  simpa only [nib_and, hm, BitVec.and_allOnes] using e

/-- R96: every row fixes the group. -/
theorem opField_of_covers : opField w = opField t.row.pattern :=
  nib_of_covers h (by cases t <;> rfl)

theorem nField_of_covers (hm : nField t.row.mask = 0xF#4) : nField w = nField t.row.pattern := nib_of_covers h hm

theorem kkField_of_covers (hm : kkField t.row.mask = 0xFF#8) : kkField w = kkField t.row.pattern := nib_of_covers h hm

theorem eq_pattern_of_covers (hm : t.row.mask = 0xFFFF#16) : w = t.row.pattern := by
  have e : w &&& t.row.mask = t.row.pattern := h
  rwa [hm, show 0xFFFF#16 = BitVec.allOnes 16 from rfl, BitVec.and_allOnes] at e

end

/-! ### The instruction of a tag -/

/-- R81, R86 to R91: the instruction of a tag with a word's fields as its operands. -/
def Tag.instr (t : Tag) (w : Word) : Instr :=
  match t with
  | .clearScreen => .clearScreen
  | .ret => .ret
  | .jump => .jump (nnnField w)
  | .call => .call (nnnField w)
  | .skipEqImm => .skipEqImm (xField w) (kkField w)
  | .skipNeqImm => .skipNeqImm (xField w) (kkField w)
  | .skipEqReg => .skipEqReg (xField w) (yField w)
  | .loadImm => .loadImm (xField w) (kkField w)
  | .addImm => .addImm (xField w) (kkField w)
  | .move => .move (xField w) (yField w)
  | .or => .or (xField w) (yField w)
  | .and => .and (xField w) (yField w)
  | .xor => .xor (xField w) (yField w)
  | .add => .add (xField w) (yField w)
  | .subForward => .subForward (xField w) (yField w)
  | .shiftRight => .shiftRight (xField w)
  | .subBackward => .subBackward (xField w) (yField w)
  | .shiftLeft => .shiftLeft (xField w)
  | .skipNeqReg => .skipNeqReg (xField w) (yField w)
  | .loadIndex => .loadIndex (nnnField w)
  | .random => .random (xField w) (kkField w)
  | .draw => .draw (xField w) (yField w) (nField w)
  | .skipKeyPressed => .skipKeyPressed (xField w)
  | .skipKeyNotPressed => .skipKeyNotPressed (xField w)
  | .loadDelay => .loadDelay (xField w)
  | .waitKey => .waitKey (xField w)
  | .storeDelay => .storeDelay (xField w)
  | .storeSound => .storeSound (xField w)
  | .addToIndex => .addToIndex (xField w)
  | .fontChar => .fontChar (xField w)
  | .storeBCD => .storeBCD (xField w)
  | .storeRange => .storeRange (xField w)
  | .loadRange => .loadRange (xField w)

theorem Tag.tag_instr (t : Tag) (w : Word) : (t.instr w).tag = t := by cases t <;> rfl

theorem wordNNN_eq {w : Word} {op : BitVec 4} (h : opField w = op) : wordNNN op (nnnField w) = w := by
  subst h; exact wordNNN_fields w

theorem wordXKK_eq {w : Word} {op : BitVec 4} {kk : Byte} (h : opField w = op) (hk : kkField w = kk) :
    wordXKK op (xField w) kk = w := by
  subst h hk; exact wordXKK_fields w

theorem wordXYN_eq {w : Word} {op : BitVec 4} {n : Nibble} (h : opField w = op) (hn : nField w = n) :
    wordXYN op (xField w) (yField w) n = w := by
  subst h hn; exact wordXYN_fields w

/-- R93: the word with the don't-care field of its instruction cleared; only the shifts have one. -/
def Tag.clearIgnored (t : Tag) (w : Word) : Word :=
  match t with
  | .shiftRight | .shiftLeft => w &&& 0xFF0F#16
  | _ => w

theorem encode_instr {t : Tag} {w : Word} (h : t.Covers w) : encode (t.instr w) = t.clearIgnored w := by
  have hop := opField_of_covers h
  cases t with
  | clearScreen | ret => exact (eq_pattern_of_covers h rfl).symm
  | jump | call | loadIndex => exact wordNNN_eq hop
  | skipEqImm | skipNeqImm | loadImm | addImm | random => exact wordXKK_eq hop rfl
  | draw => exact wordXYN_eq hop rfl
  | skipEqReg | skipNeqReg | move | or | and | xor | add | subForward | subBackward =>
    exact wordXYN_eq hop (nField_of_covers h rfl)
  | shiftRight | shiftLeft =>
    refine Eq.trans ?_ (and_FF0F w).symm
    rw [hop, nField_of_covers h rfl]
    rfl
  | _ => exact wordXKK_eq hop (kkField_of_covers h rfl)

/-! ### The decoder is the opcode table -/

/-- R93: but for the shifts the covered word is the encoding of the row's instruction, and the decoder ignores the shifts' `y`. -/
theorem decodeWord_of_covers {t : Tag} {w : Word} (h : t.Covers w) : decodeWord w = .ok (t.instr w) := by
  cases t with
  | shiftRight | shiftLeft =>
    rw [decodeWord, opField_of_covers h]
    show decodeGroup8 w = _
    rw [decodeGroup8, nField_of_covers h rfl]
    rfl
  | _ => exact (congrArg decodeWord (encode_instr h)).symm.trans (decodeWord_encode _)

/-- R92: the two answers the table leaves the decoder for a word: a covering row's instruction, or `Unrecognized`. -/
def DecodedFromTable (w : Word) (answer : Except Reject Instr) : Prop :=
  (∃ t : Tag, t.Covers w ∧ answer = .ok (t.instr w)) ∨ answer = .error (.unrecognized w)

namespace DecodedFromTable
variable {w : Word} (t : Tag) {op : BitVec 4}

theorem unrecognized : DecodedFromTable w (.error (.unrecognized w)) := .inr rfl

/-- A row that fixes the group alone. -/
theorem of_op (h : opField w = op) (hm : t.row.mask = 0xF000#16 := by rfl)
    (hp : t.row.pattern = wordNNN op 0 := by rfl) : DecodedFromTable w (.ok (t.instr w)) :=
  .inl ⟨t, by rw [Tag.Covers, hm, hp]; exact (and_F000_iff w op).mpr h, rfl⟩

/-- A row that fixes the group and the low nibble. -/
theorem of_op_n {n : Nibble} (h : opField w = op) (hn : nField w = n) (hm : t.row.mask = 0xF00F#16 := by rfl)
    (hp : t.row.pattern = wordXYN op 0 0 n := by rfl) : DecodedFromTable w (.ok (t.instr w)) :=
  .inl ⟨t, by rw [Tag.Covers, hm, hp]; exact (and_F00F_iff w op n).mpr ⟨h, hn⟩, rfl⟩

/-- A row that fixes the group and the low byte. -/
theorem of_op_kk {kk : Byte} (h : opField w = op) (hk : kkField w = kk) (hm : t.row.mask = 0xF0FF#16 := by rfl)
    (hp : t.row.pattern = wordXKK op 0 kk := by rfl) : DecodedFromTable w (.ok (t.instr w)) :=
  .inl ⟨t, by rw [Tag.Covers, hm, hp]; exact (and_F0FF_iff w op kk).mpr ⟨h, hk⟩, rfl⟩

theorem of_decodeGroup0 (w : Word) : DecodedFromTable w (decodeGroup0 w) := by
  unfold decodeGroup0
  split
  · next h => subst h; exact .inl ⟨.clearScreen, rfl, rfl⟩
  · split
    · next h => subst h; exact .inl ⟨.ret, rfl, rfl⟩
    · exact unrecognized

theorem of_decodeGroup8 (h : opField w = 0x8#4) : DecodedFromTable w (decodeGroup8 w) := by
  unfold decodeGroup8
  split
  · exact of_op_n .move h ‹_›
  · exact of_op_n .or h ‹_›
  · exact of_op_n .and h ‹_›
  · exact of_op_n .xor h ‹_›
  · exact of_op_n .add h ‹_›
  · exact of_op_n .subForward h ‹_›
  · exact of_op_n .shiftRight h ‹_›
  · exact of_op_n .subBackward h ‹_›
  · exact of_op_n .shiftLeft h ‹_›
  · exact unrecognized

theorem of_decodeGroupE (h : opField w = 0xE#4) : DecodedFromTable w (decodeGroupE w) := by
  unfold decodeGroupE
  split
  · exact of_op_kk .skipKeyPressed h ‹_›
  · exact of_op_kk .skipKeyNotPressed h ‹_›
  · exact unrecognized

theorem of_decodeGroupF (h : opField w = 0xF#4) : DecodedFromTable w (decodeGroupF w) := by
  unfold decodeGroupF
  split
  · exact of_op_kk .loadDelay h ‹_›
  · exact of_op_kk .waitKey h ‹_›
  · exact of_op_kk .storeDelay h ‹_›
  · exact of_op_kk .storeSound h ‹_›
  · exact of_op_kk .addToIndex h ‹_›
  · exact of_op_kk .fontChar h ‹_›
  · exact of_op_kk .storeBCD h ‹_›
  · exact of_op_kk .storeRange h ‹_›
  · exact of_op_kk .loadRange h ‹_›
  · exact unrecognized

/-- R92: the decoder answers from the table alone, for every word. -/
theorem of_decodeWord (w : Word) : DecodedFromTable w (decodeWord w) := by
  unfold decodeWord
  split
  · exact of_decodeGroup0 w
  · exact of_op .jump ‹_›
  · exact of_op .call ‹_›
  · exact of_op .skipEqImm ‹_›
  · exact of_op .skipNeqImm ‹_›
  · split
    · exact of_op_n .skipEqReg ‹_› ‹_›
    · exact unrecognized
  · exact of_op .loadImm ‹_›
  · exact of_op .addImm ‹_›
  · exact of_decodeGroup8 ‹_›
  · split
    · exact of_op_n .skipNeqReg ‹_› ‹_›
    · exact unrecognized
  · exact of_op .loadIndex ‹_›
  · exact of_op .random ‹_›
  · exact of_op .draw ‹_›
  · exact of_decodeGroupE ‹_›
  · exact of_decodeGroupF ‹_›
  · exact unrecognized

end DecodedFromTable

/-- R96: the words that decode to an instruction of a tag are those its row covers. -/
theorem covers_iff (t : Tag) (w : Word) : t.Covers w ↔ ∃ i, decodeWord w = .ok i ∧ i.tag = t := by
  constructor
  · exact fun h => ⟨t.instr w, decodeWord_of_covers h, Tag.tag_instr t w⟩
  · rintro ⟨i, hd, rfl⟩
    obtain ⟨t, h, e⟩ | e := DecodedFromTable.of_decodeWord w
    · cases e.symm.trans hd
      rwa [Tag.tag_instr]
    · cases e.symm.trans hd

/-- R93: a decoded word is the encoding of its instruction, but for the ignored field. -/
theorem encode_of_decodeWord {w : Word} {i : Instr} (hd : decodeWord w = .ok i) : encode i = i.tag.clearIgnored w := by
  have h : i.tag.Covers w := (covers_iff i.tag w).mpr ⟨i, hd, rfl⟩
  have e : i.tag.instr w = i := Except.ok.inj ((decodeWord_of_covers h).symm.trans hd)
  exact (congrArg encode e).symm.trans (encode_instr h)

/-- Settles O2: `encode_of_decodeWord`, whose cleared field only the shifts have. -/
theorem encodeOfDecodeRestoresTheWord : Obligations.EncodeOfDecodeRestoresTheWord := by
  intro w i hd
  rw [encode_of_decodeWord hd]
  cases i <;> rfl

/-- R96: no word is covered by the rows of two tags. -/
theorem covers_unique {t t' : Tag} {w : Word} (h : t.Covers w) (h' : t'.Covers w) : t' = t := by
  have e : t'.instr w = t.instr w := Except.ok.inj ((decodeWord_of_covers h').symm.trans (decodeWord_of_covers h))
  rw [← Tag.tag_instr t' w, e, Tag.tag_instr]

/-- R96: the opcode map lists the tags of the rows whose pattern lies in the group. -/
theorem mem_opcodeMap_iff (op : BitVec 4) (t : Tag) : t ∈ opcodeMap op ↔ opField t.row.pattern = op := by
  revert op
  cases t <;> decide

theorem covers_pattern (t : Tag) : t.Covers t.row.pattern := by cases t <;> rfl

theorem mem_opcodeMap_iff_decodes (op : BitVec 4) (t : Tag) :
    t ∈ opcodeMap op ↔ ∃ w i, opField w = op ∧ decodeWord w = .ok i ∧ i.tag = t := by
  rw [mem_opcodeMap_iff]
  constructor
  · intro h
    obtain ⟨i, hd, ht⟩ := (covers_iff t _).mp (covers_pattern t)
    exact ⟨t.row.pattern, i, h, hd, ht⟩
  · rintro ⟨w, i, rfl, hd, ht⟩
    exact (opField_of_covers ((covers_iff t w).mpr ⟨i, hd, ht⟩)).symm

/-- Settles O3: `covers_iff`, `covers_unique` and `mem_opcodeMap_iff_decodes`, a row being that of its tag. -/
theorem wordDecodesExactlyToItsTableRow : Obligations.WordDecodesExactlyToItsTableRow := by
  refine ⟨fun w row hr => ⟨?_, fun row' hr' h h' => ?_⟩, fun tag => ?_, mem_opcodeMap_iff_decodes⟩
  · rw [← covers_tag_iff hr]
    exact covers_iff row.tag w
  · rw [← covers_tag_iff hr] at h
    rw [← covers_tag_iff hr'] at h'
    rw [eq_row_of_mem hr', covers_unique h h', ← eq_row_of_mem hr]
  · exact ⟨tag.row, Tag.row_mem tag, Tag.tag_row tag, fun row' hr' ht => ht ▸ eq_row_of_mem hr'⟩

/-- R93: `Unrecognized` is the answer exactly where no row covers the word. -/
theorem unrecognized_iff (w : Word) : decodeWord w = .error (.unrecognized w) ↔ ∀ t : Tag, ¬ t.Covers w := by
  constructor
  · intro he t h
    cases he.symm.trans (decodeWord_of_covers h)
  · intro hn
    obtain ⟨t, h, _⟩ | e := DecodedFromTable.of_decodeWord w
    · exact absurd h (hn t)
    · exact e

/-- Settles O4: `DecodedFromTable.of_decodeWord` and `unrecognized_iff`; no row lies in group 0xB. -/
theorem unrecognizedExactlyOutsideTheTable : Obligations.UnrecognizedExactlyOutsideTheTable := by
  intro w
  refine ⟨?_, ?_, fun hop => ?_⟩
  · obtain ⟨t, _, e⟩ | e := DecodedFromTable.of_decodeWord w
    · exact .inl ⟨_, e⟩
    · exact .inr e
  · rw [unrecognized_iff]
    exact ⟨fun hn row hr h => hn row.tag ((covers_tag_iff hr w).mpr h), fun hn t => hn t.row (Tag.row_mem t)⟩
  · rw [unrecognized_iff]
    intro t h
    have hB : t ∈ opcodeMap 0xB#4 := (mem_opcodeMap_iff _ t).mpr ((opField_of_covers h).symm.trans hop)
    exact List.not_mem_nil hB

/-! ### The nibbles of a word, and sample words -/

/-- A concatenation is its parts shifted into place. -/
theorem setWidth_append_eq_or {m n k : Nat} (p : BitVec m) (q : BitVec n) :
    (p ++ q).setWidth k = p.setWidth k <<< n ||| q.setWidth k := by
  ext i hi
  by_cases h : i < n
  · simp [BitVec.getLsbD_append, h]
  · simp [BitVec.getLsbD_append, h, BitVec.getLsbD_of_ge q i (by omega)]

theorem setWidth_nibbles (a b c d : BitVec 4) : (a ++ b ++ c ++ d).setWidth 16 =
    a.setWidth 16 <<< 12 ||| b.setWidth 16 <<< 8 ||| c.setWidth 16 <<< 4 ||| d.setWidth 16 := by
  simp only [setWidth_append_eq_or, BitVec.shiftLeft_or_distrib, ← BitVec.shiftLeft_add]

/-- Settles O5: `wordXYN_fields` with the concatenation written as shifts. -/
theorem nibbleExtractorRoundTrip : Obligations.NibbleExtractorRoundTrip := by
  intro w
  constructor
  · calc _ = (wordXYN (opField w) (xField w) (yField w) (nField w)).setWidth 16 :=
          (setWidth_nibbles (nib w 0 1) (nib w 1 1) (nib w 2 1) (nib w 3 1)).symm
      _ = w := by rw [BitVec.setWidth_eq, wordXYN_fields]
  · apply BitVec.eq_of_toNat_eq
    rw [toNat_nib]
    exact (congrArg (· % 2 ^ 16) (Nat.div_one _)).trans (Nat.mod_eq_of_lt w.isLt)

/-- Settles O6 by running the decoder on the ten words. -/
theorem sampleWordsDecode : Obligations.SampleWordsDecode := by
  unfold Obligations.SampleWordsDecode; decide

end Sys2Proof

namespace Sys2Proof.Machine

/-! ### Register results -/

/-- An instruction that is a write of one register meets its claim. -/
theorem setsRegister_of_exec {i : Instr} {s : State} {x : Reg} {b : Byte} (h : exec i s = .next (s.setV x b)) :
    SetsRegister i s x b :=
  ⟨_, h, getV_setV_self s x b, setV_onlyRegs s x b, setV_frame s x b⟩

/-- R161: an instruction that is a flagged write meets its claim, for either write order. -/
theorem setsWithFlag_of_exec {i : Instr} {s : State} {x : Reg} {r f : Byte}
    (h : exec i s = .next (writeWithFlag Config.vfWriteOrder x r f s)) : SetsWithFlag i s x r f := by
  refine ⟨_, h, fun hx => ⟨?_, ?_⟩, ?_, writeWithFlag_onlyRegs s _ x r f, writeWithFlag_frame s _ x r f⟩
  · rw [writeWithFlag_getV _ hx, if_neg hx, if_pos rfl]
  · rw [writeWithFlag_getV _ hx, if_pos rfl]
  · rintro rfl
    exact (writeWithFlag_getV_VF _ r f s VF).trans (if_pos rfl)

/-- R160: bytes are added modulo 256. -/
theorem byte_add_eq (a b : Byte) : a + b = BitVec.ofNat 8 ((a.toNat + b.toNat) % 256) := by
  apply BitVec.eq_of_toNat_eq
  simp

theorem carryFlag_eq (a b : Byte) : carryFlag a b = if a.toNat + b.toNat > 255 then 1 else 0 := by
  simp [carryFlag, flagByte]

/-- Settles O35: AddImm is the register write of the wrapped sum. -/
theorem addImmWrapsWithoutFlag : Obligations.AddImmWrapsWithoutFlag := by
  intro x kk s
  rw [← byte_add_eq]
  exact ⟨decodeWord_encode (.addImm x kk), setsRegister_of_exec rfl⟩

/-- Settles O36: each of the three is one register write. -/
theorem logicWritesOnlyTheRegister : Obligations.LogicWritesOnlyTheRegister := fun x y _ =>
  ⟨decodeWord_encode (.or x y), setsRegister_of_exec rfl, decodeWord_encode (.and x y), setsRegister_of_exec rfl,
    decodeWord_encode (.xor x y), setsRegister_of_exec rfl⟩

/-- Settles O37: Add is the flagged write of the wrapped sum and its carry. -/
theorem addWritesSumAndCarry : Obligations.AddWritesSumAndCarry := by
  intro x y s
  rw [← byte_add_eq, ← carryFlag_eq]
  exact ⟨decodeWord_encode (.add x y), setsWithFlag_of_exec rfl⟩

/-- Settles O40: the stream advances first, and the register write leaves it alone. -/
theorem randomMasksTheNextStreamValue : Obligations.RandomMasksTheNextStreamValue := by
  intro x kk s
  refine ⟨decodeWord_encode (.random x kk), _, rfl, getV_setV_self _ x _, rfl, ?_, completion_frame (.random x kk) s⟩
  exact setV_onlyRegs (s.setPrng _) x _

/-! ### The stack -/

/-- R142: a full finite stack halts. -/
theorem pushPcAndJump_full {c : Nat} {s : State} (h : s.stack.length = c) (target : Word) :
    pushPcAndJump (some c) target s = raiseAtExecute .stackOverflow none s := by
  simp [pushPcAndJump, stackFull, h]

/-- R142: a finite stack with room takes the push as the unbounded one does. -/
theorem pushPcAndJump_room {c : Nat} {s : State} (h : s.stack.length ≠ c) (target : Word) :
    pushPcAndJump (some c) target s = pushPcAndJump none target s := by
  simp [pushPcAndJump, stackFull, h]

/-- R84: an address operand keeps its value. -/
theorem addressOf_toNat (nnn : Addr12) : (addressOf nnn).toNat = nnn.toNat :=
  BitVec.toNat_setWidth_of_le (by decide)

/-- Settles O31: Call at the unbounded capacity never finds the stack full; a finite one decides by its length. -/
theorem callPushesAndJumps : Obligations.CallPushesAndJumps := by
  refine ⟨fun nnn s => ?_, fun c target s => ⟨fun h => ?_, fun h => pushPcAndJump_room h target⟩⟩
  · exact ⟨decodeWord_encode (.call nnn), rfl, _, rfl, rfl, addressOf_toNat nnn, completion_frame (.call nnn) s⟩
  · rw [pushPcAndJump_full h]
    exact raiseFatal_halts ..

/-! ### The index register and memory transfers -/

theorem fontDigitOf_le (mode : FontDigit) (b : Byte) : fontDigitOf mode b ≤ b.toNat := by
  cases mode with
  | lowNibble => exact Nat.mod_le ..
  | full => exact le_rfl

/-- D10: the modes agree on a register that holds a digit. -/
theorem fontDigitOf_digit (mode : FontDigit) {b : Byte} (h : b.toNat ≤ 0xF) : fontDigitOf mode b = b.toNat := by
  cases mode with
  | lowNibble => exact Nat.mod_eq_of_lt (by omega)
  | full => rfl

/-- R192: a glyph address does not wrap. -/
theorem glyphAddress_toNat (mode : FontDigit) (b : Byte) :
    (glyphAddress mode b).toNat = Config.fontBase + 5 * fontDigitOf mode b := by
  have := fontDigitOf_le mode b
  have := b.isLt
  rw [glyphAddress, BitVec.toNat_ofNat, Config.fontBase]
  omega

/-- Settles O43: the glyph address does not wrap, and a digit is taken whole in both modes. -/
theorem fontCharPointsAtTheGlyph : Obligations.FontCharPointsAtTheGlyph := by
  intro x s
  have address := glyphAddress_toNat Config.fontDigit (s.getV x)
  refine ⟨decodeWord_encode (.fontChar x), _, rfl, completion_frame (.fontChar x) s, address, fun h => ?_⟩
  rw [State.setIndex_index, address, fontDigitOf_digit _ h, Config.fontBase, Nat.zero_add]

/-- Settles O44: the digits are the bytes of the transfer, each below 256. -/
theorem storeBCDWritesThreeDigits : Obligations.StoreBCDWritesThreeDigits := by
  intro x s hm
  refine ⟨decodeWord_encode (.storeBCD x), fun h => ?_, fun h => withSpan_halts (by decide) (by omega) s _⟩
  have hb : s.index.toNat + (bcdDigits (s.getV x)).length ≤ Config.memSize := h
  have digit {k : Nat} (hk : k < 3) := Memory.read_writeBytes_inside hm hb hk
  have := (s.getV x).isLt
  refine ⟨_, exec_storeBCD_inBounds h, ?_, ?_, ?_, writeBytes_onlyBytes s hm _ _ hb, setMem_frame s _⟩
  · exact (congrArg BitVec.toNat (digit (k := 0) (by decide))).trans (Nat.mod_eq_of_lt (by omega))
  · exact (congrArg BitVec.toNat (digit (k := 1) (by decide))).trans (Nat.mod_eq_of_lt (by omega))
  · exact (congrArg BitVec.toNat (digit (k := 2) (by decide))).trans (Nat.mod_eq_of_lt (by omega))

/-- Settles O45: the registers are the bytes of the transfer. -/
theorem storeRangeWritesTheRegisters : Obligations.StoreRangeWritesTheRegisters := by
  intro x s hm
  refine ⟨decodeWord_encode (.storeRange x), fun h => ?_, fun h => withSpan_halts (by omega) (by omega) s _⟩
  have len := regsUpTo_length s x
  have hb : s.index.toNat + (regsUpTo s x).length ≤ Config.memSize := by rw [len]; exact h
  refine ⟨_, exec_storeRange_inBounds h, fun r hr => ?_, len ▸ writeBytes_onlyBytes s hm _ _ hb, setMem_frame s _⟩
  rw [State.setMem_mem, Memory.read_writeBytes_inside hm hb (by rw [len]; exact Nat.lt_succ_of_le hr), regsUpTo_getD s x r hr]

/-- R195: LoadRange completes where its last byte is in bounds. -/
theorem exec_loadRange_inBounds {x : Reg} {s : State} (h : s.index.toNat + x.val < 4096) :
    exec (.loadRange x) s = .next (s.setRegs (loadRegs s.mem s.index.toNat x s.v)) :=
  congrArg _ (withSpan_inBounds (fun k hk => show s.index.toNat + k < 4096 by omega) s _)

/-- Settles O46: the register file after the load, register by register. -/
theorem loadRangeReadsTheRegisters : Obligations.LoadRangeReadsTheRegisters := by
  intro x s
  refine ⟨decodeWord_encode (.loadRange x), fun h => ?_, fun h => withSpan_halts (by omega) (by omega) s _⟩
  have loaded := loadRegs_get s.mem s.index.toNat x s.v
  exact ⟨_, exec_loadRange_inBounds h, fun r hr => (loaded r).trans (if_pos hr),
    fun r hr => (loaded r).trans (if_neg (not_le.mpr hr)), setRegs_frame s _⟩

/-! ### The display -/

/-- R211: every cell of a blank display is off. -/
theorem blank_cell {c r : Nat} (hc : c < 64) (hr : r < 32) : Display.blank[c][r] = false := by
  simp [Display.blank]

/-- Settles O49: ClearScreen presents the blank display. -/
theorem clearScreenBlanksTheDisplay : Obligations.ClearScreenBlanksTheDisplay :=
  ⟨decodeWord_encode .clearScreen, fun s => ⟨_, rfl, fun _ _ => blank_cell, rfl, present_frame s _⟩⟩

end Sys2Proof.Machine

/-! PROOFS. The family 40_cycle.md. A cycle from a running state has one of three outcomes, each with an equation: a fetch fault, a decoding
fault, or the decoded instruction run in `beginCycle`'s state. The claims about a cycle are read off these; the invariant of the pc and the
stack is a fact about the completion of an instruction whose pc follows a checked fetch. -/

namespace Sys2Proof.Machine

/-! ### The pc and the return addresses -/

/-- R26, R142: the address after an instruction fetched at 0x200 to 0xFFE, so what a Call pushes. -/
def FollowsFetch (a : Word) : Prop := 0x202 ≤ a.toNat ∧ a.toNat ≤ 0x1000

theorem FollowsFetch.le {a : Word} (h : FollowsFetch a) : a.toNat ≤ 0x1002 := h.2.trans (by decide)

/-- R122, R125: the pc after the advance of a fetch that passed its checks. -/
theorem Fetchable.followsFetch {alignStrict : Bool} {a : Word} (h : Fetchable alignStrict a) : FollowsFetch (a + 2) := by
  obtain ⟨low, high, _⟩ := h
  have advanced : (a + 2).toNat = (a.toNat + 2) % 65536 := BitVec.toNat_add a 2
  constructor <;> omega

/-- R130: a skip passes over one word at most. -/
theorem skipIf_pc_le {s : State} (h : FollowsFetch s.pc) (c : Bool) : (skipIf c s).pc.toNat ≤ 0x1002 := by
  cases c with
  | false => exact h.le
  | true => exact (BitVec.toNat_add s.pc 2).trans_le ((Nat.mod_le ..).trans (Nat.add_le_add_right h.2 2))

/-- R233: WaitKey does not advance the pc. -/
theorem awaitKey_pc_le {s : State} (h : FollowsFetch s.pc) (x : Reg) : (awaitKey x s).pc.toNat ≤ s.pc.toNat := by
  obtain ⟨low, _⟩ := h
  obtain e | ⟨b, e⟩ := awaitKey_cases x s
  · have two : (2 : Word) ≤ s.pc := BitVec.le_def.mpr (show 2 ≤ s.pc.toNat by omega)
    rw [e]
    exact (BitVec.toNat_sub_of_le two).trans_le (Nat.sub_le ..)
  · rw [e]; exact le_rfl

/-- R24: a completed instruction goes to the next word, past it, back to its own, to an address operand or to a return address. -/
theorem completion_pc_le (i : Instr) {s : State} (hpc : FollowsFetch s.pc) (hstack : ∀ a ∈ s.stack, FollowsFetch a) :
    (completion i s).pc.toNat ≤ 0x1002 := by
  cases i with
  | ret =>
    show (s.stack.headD 0).toNat ≤ 0x1002
    cases hs : s.stack with
    | nil => decide
    | cons top rest => exact (hstack top (hs ▸ List.mem_cons_self)).le
  | jump nnn | call nnn =>
    show (addressOf nnn).toNat ≤ 0x1002
    have := nnn.isLt
    rw [addressOf_toNat]; omega
  | skipEqImm | skipNeqImm | skipEqReg | skipNeqReg | skipKeyPressed | skipKeyNotPressed => exact skipIf_pc_le hpc _
  | waitKey x => exact (awaitKey_pc_le hpc x).trans hpc.le
  | _ => exact hpc.le

/-- R26: a completed instruction puts nothing on the stack but the pc. -/
theorem mem_completion_stack {i : Instr} {s : State} {a : Word} (h : a ∈ (completion i s).stack) : a ∈ s.stack ∨ a = s.pc := by
  cases i with
  | ret => exact .inl (List.mem_of_mem_tail h)
  | call => exact (List.mem_cons.mp h).symm
  | waitKey x =>
    have h : a ∈ (awaitKey x s).stack := h
    obtain e | ⟨b, e⟩ := awaitKey_cases x s
    · rw [e] at h; exact .inl h
    · rw [e] at h; exact .inl h
  | _ => exact .inl h

theorem cycle_pcBounded {now : Nat} {key : Option Key} {s t : State} {alignStrict : Bool} {units : Nat}
    (h : cycleWith alignStrict units exec now key s = .next t) (hb : PcBounded s) : PcBounded t := by
  intro ht
  obtain ⟨hh, e⟩ | ⟨_, code, _, e⟩ | ⟨_, _, _, e⟩ | ⟨hs, hf, i, _, e⟩ :=
    cycleWith_cases alignStrict units exec now key s
  · cases e.symm.trans h; exact absurd ht hh
  · cases e.symm.trans h; cases ht
  · cases e.symm.trans h; cases ht
  · obtain rfl := eq_completion_of_running (e.symm.trans h) ht
    have hpc : FollowsFetch (beginCycle units now key s).pc := (fetchFault_eq_none.mp hf).followsFetch
    have hstack : ∀ a ∈ s.stack, FollowsFetch a := (hb hs).2
    exact ⟨completion_pc_le i hpc hstack, fun a ha => (mem_completion_stack ha).elim (hstack a) fun e => e ▸ hpc⟩

/-- Settles O24: a cycle that ends running has completed an instruction at a fetchable pc; a reset leaves the pc and the stack
of the reset value. -/
theorem stepKeepsPcBounded : Obligations.StepKeepsPcBounded := by
  intro s t hb h
  cases he : nextEvent s with
  | cycle now key => exact cycle_pcBounded ((step_cycle he).symm.trans h) hb
  | reset seed t0 image =>
    cases (step_reset he).symm.trans h
    obtain ⟨_, bounded, running, _⟩ := invariantsHoldAtReset
    exact fun _ => bounded running

/-! ### The fetch checks -/

/-- R122. -/
theorem fetchFault_outOfBounds (alignStrict : Bool) {a : Word} (h : a.toNat < 0x200 ∨ 0xFFE < a.toNat) :
    fetchFault alignStrict a = some .pcOutOfBounds := if_pos h

/-- R123, where the alignment is strict. -/
theorem fetchFault_misaligned {a : Word} (low : 0x200 ≤ a.toNat) (high : a.toNat ≤ 0xFFE) (odd : a.toNat % 2 = 1) :
    fetchFault true a = some .pcMisaligned := by
  have inBounds : ¬ (a.toNat < 0x200 ∨ 0xFFE < a.toNat) := by omega
  rw [fetchFault, if_neg inBounds, odd]
  rfl

/-! ### What a cycle from a running state is, one equation per outcome -/

section
variable {alignStrict : Bool} {s : State} (hs : Running s) (units now : Nat) (key : Option Key)
include hs

/-- R122, R123: a fetch that fails its checks ends the cycle. -/
theorem cycleWith_of_fetchFault {code : Fault} (hf : fetchFault alignStrict s.pc = some code) :
    cycleWith alignStrict units exec now key s = .next (raiseFatal code none none (latchFetchAddr s)) := by
  simp only [cycleWith, hs, hf]

/-- R127: an unrecognized word ends the cycle. -/
theorem cycleWith_of_decodeError {e : Reject} (hf : Fetchable alignStrict s.pc) (hd : decodeWord (s.mem.fetch s.pc) = .error e) :
    cycleWith alignStrict units exec now key s = .next (raiseAtExecute .decodeFailure none (beginCycle units now key s)) := by
  simp only [cycleWith, hs, fetchFault_eq_none.mpr hf, hd]

/-- R128: a decoded instruction runs. -/
theorem cycleWith_of_decode {i : Instr} (hf : Fetchable alignStrict s.pc) (hd : decodeWord (s.mem.fetch s.pc) = .ok i) :
    cycleWith alignStrict units exec now key s = exec i (beginCycle units now key s) := by
  simp only [cycleWith, hs, fetchFault_eq_none.mpr hf, hd]

end

/-- R128, for a step. -/
theorem step_of_decode {s : State} {now : Nat} {key : Option Key} {i : Instr} (he : nextEvent s = .cycle now key)
    (hs : Running s) (hf : Fetchable Config.pcAlignStrict s.pc) (hd : decodeWord (s.mem.fetch s.pc) = .ok i) :
    step s = exec i (beginCycle Config.timeUnitsPerSecond now key (takeEvent s)) :=
  (step_cycle he).trans (cycleWith_of_decode (s := takeEvent s) hs _ _ _ hf hd)

/-! ### The faults of a cycle -/

theorem mayRaise_of_ownFault {i : Instr} {s : State} {code : Fault} {dataAddr : Option Nat}
    (h : ownFault i s = some (code, dataAddr)) : mayRaise i = some code := by
  have span {n : Nat} (h : spanFault s n = some (code, dataAddr)) : some Fault.memoryOutOfBounds = some code := by
    obtain ⟨_, _, e⟩ := Option.map_eq_some_iff.mp h
    cases e; rfl
  cases i with
  | ret =>
    obtain ⟨_, e⟩ := Option.ite_none_right_eq_some.mp h
    cases e; rfl
  | storeBCD | storeRange | loadRange | draw => exact span h
  | _ => cases h

theorem halted_notMem_mayWrite (i : Instr) : .halted ∉ mayWrite i := by
  cases i <;> simp [mayWrite]

/-- R255: an instruction that starts running halts with its own fault alone. -/
theorem mayRaise_of_halted {i : Instr} {s t : State} {r : FaultRecord} (h : exec i s = .next t) (hs : Running s)
    (ht : t.halted = some r) : mayRaise i = some r.code := by
  obtain ⟨_, rfl⟩ | ⟨code, dataAddr, hf, rfl⟩ := exec_cases h
  · have kept : (completion i s).halted = s.halted := (completion_frame i s).1 .halted (halted_notMem_mayWrite i)
    rw [kept, hs] at ht
    cases ht
  · cases ht
    exact mayRaise_of_ownFault hf

/-- R255: the fetch faults are no instruction's own. -/
theorem mayRaise_ne_fetchFault (i : Instr) : mayRaise i ≠ some .pcOutOfBounds ∧ mayRaise i ≠ some .pcMisaligned := by
  cases i <;> simp [mayRaise]

/-- R122, R123: a cycle whose fetch passes its checks halts, if it does, with a decoding fault or the instruction's own. -/
theorem not_fetchFault_of_fetchable {alignStrict : Bool} {units now : Nat} {key : Option Key} {s t : State} {r : FaultRecord}
    (hs : Running s) (hf : Fetchable alignStrict s.pc) (h : cycleWith alignStrict units exec now key s = .next t)
    (ht : t.halted = some r) : r.code ≠ .pcOutOfBounds ∧ r.code ≠ .pcMisaligned := by
  cases hd : decodeWord (s.mem.fetch s.pc) with
  | error e =>
    cases (cycleWith_of_decodeError hs units now key hf hd).symm.trans h
    cases ht
    exact ⟨nofun, nofun⟩
  | ok i =>
    have ran := (cycleWith_of_decode hs units now key hf hd).symm.trans h
    have raised := mayRaise_of_halted ran hs ht
    obtain ⟨bounds, alignment⟩ := mayRaise_ne_fetchFault i
    exact ⟨fun e => bounds (e ▸ raised), fun e => alignment (e ▸ raised)⟩

/-- Settles O10: the bounds check comes first, the alignment check decides in bounds, and neither fires later in the cycle. -/
theorem fetchChecksDecideTheFetchFaults : Obligations.FetchChecksDecideTheFetchFaults := by
  refine ⟨fun strict units now key s hs => ⟨fun out => ?_, fun low high odd hstrict => ?_, fun hf t r h ht => ?_⟩,
    fun s now key he => step_cycle he⟩
  · rw [cycleWith_of_fetchFault hs _ _ _ (fetchFault_outOfBounds strict out)]
    exact raiseFatal_halts ..
  · subst hstrict
    rw [cycleWith_of_fetchFault hs _ _ _ (fetchFault_misaligned low high odd)]
    exact raiseFatal_halts ..
  · exact not_fetchFault_of_fetchable hs hf h ht

/-- Settles O11: the third outcome of a cycle, at the fetch address and word latched by `beginCycle`. -/
theorem unrecognizedWordHalts : Obligations.UnrecognizedWordHalts := by
  intro strict units now key s hs hf hd
  rw [cycleWith_of_decodeError hs units now key hf hd]
  exact raiseFatal_halts ..

/-! ### The state an instruction runs in -/

/-- R60: the word that a cycle fetches is the one that the bytes at the pc decode by. -/
theorem decodeWord_fetch_of_decodeBytes {m : Memory} {a : Word} {i : Instr}
    (h : decodeBytes [m.read a.toNat, m.read (a.toNat + 1)] = .ok (i, [])) : decodeWord (m.fetch a) = .ok i := by
  have h : (decodeWord (m.fetch a)).map (fun j => (j, ([] : List Byte))) = .ok (i, []) := h
  cases hd : decodeWord (m.fetch a) with
  | error e => rw [hd] at h; cases h
  | ok j => rw [hd] at h; cases h; rfl

/-- R259: the timers and the baseline that an instruction finds. -/
theorem beginCycle_timers (units now : Nat) (key : Option Key) (s : State) :
    ((beginCycle units now key s).dt, (beginCycle units now key s).st, (beginCycle units now key s).lastTick) =
      if s.lastTick ≤ now ∧ units ≤ 60 * (now - s.lastTick)
        then (BitVec.ofNat 8 (s.dt.toNat - 1), BitVec.ofNat 8 (s.st.toNat - 1), now) else (s.dt, s.st, s.lastTick) := by
  simp only [beginCycle_dt, beginCycle_st, beginCycle_lastTick, tickDue_iff, countDown_eq]
  split <;> rfl

/-- Settles O8: the state is `beginCycle`'s, the event taken; its timers by `beginCycle_timers`, its other fields by reading. -/
theorem stepRunsDecodedInstruction : Obligations.StepRunsDecodedInstruction := by
  intro s now key i he hs hf hd _
  exact ⟨_, step_of_decode he hs hf (decodeWord_fetch_of_decodeBytes hd), rfl, rfl, rfl, rfl, rfl,
    beginCycle_timers _ now key (takeEvent s), rfl, rfl, rfl, rfl, rfl, rfl, hs, rfl, rfl⟩

/-- Settles O19: each instruction reads and writes the timers of the state that the cycle's update has left. -/
theorem timerUpdateRunsBeforeExecution : Obligations.TimerUpdateRunsBeforeExecution := by
  intro s now key x he hs hf
  refine ⟨fun hd => ⟨_, step_of_decode he hs hf hd, ?_⟩, fun hd => ⟨_, step_of_decode he hs hf hd, rfl⟩,
    fun hd => ⟨_, step_of_decode he hs hf hd, rfl⟩⟩
  rw [getV_setV_self, beginCycle_dt, countDown_eq]
  simp only [tickDue_iff]
  rfl

/-- Settles O25: `exec_eq` names the next state. -/
theorem everyInstructionAnswersNext : Obligations.EveryInstructionAnswersNext := fun i s => ⟨_, exec_eq i s⟩

end Sys2Proof.Machine

/-! PROOFS. The family 41_control_flow.md. The record of an instruction's halt is that of its own fault (`ownFault_of_halted`); a skip is
claimed once (`skipsIff_of_exec`) for any condition; the address that Jump sets is fetchable by its operand's value. -/

namespace Sys2Proof.Machine

/-! ### The record of an instruction's halt -/

/-- R252, R255: an instruction that starts running halts with its own fault, at the cycle's address and word. -/
theorem ownFault_of_halted {i : Instr} {s t : State} {r : FaultRecord} (h : exec i s = .next t) (hs : Running s)
    (ht : t.halted = some r) :
    ownFault i s = some (r.code, r.dataAddr) ∧ r.addr = s.fetchAddr ∧ r.word = some s.fetchWord := by
  obtain ⟨_, rfl⟩ | ⟨code, dataAddr, hf, rfl⟩ := exec_cases h
  · have kept : (completion i s).halted = s.halted := (completion_frame i s).1 .halted (halted_notMem_mayWrite i)
    rw [kept, hs] at ht
    cases ht
  · cases ht
    exact ⟨hf, rfl, rfl⟩

/-- R69: a bounds fault names the address that is out of bounds. -/
theorem memoryOutOfBounds_of_spanFault {s : State} {n : Nat} {code : Fault} {dataAddr : Option Nat}
    (h : spanFault s n = some (code, dataAddr)) : code = .memoryOutOfBounds ∧ dataAddr.isSome = true := by
  obtain ⟨bad, _, e⟩ := Option.map_eq_some_iff.mp h
  cases e
  exact ⟨rfl, rfl⟩

/-- R252: of the faults of an instruction the bounds fault alone has a data address. -/
theorem dataAddr_isSome_iff {i : Instr} {s : State} {code : Fault} {dataAddr : Option Nat}
    (h : ownFault i s = some (code, dataAddr)) : dataAddr.isSome = true ↔ code = .memoryOutOfBounds := by
  cases i with
  | ret =>
    obtain ⟨_, e⟩ := Option.ite_none_right_eq_some.mp h
    cases e
    exact ⟨nofun, nofun⟩
  | storeBCD | storeRange | loadRange | draw =>
    obtain ⟨hcode, haddr⟩ := memoryOutOfBounds_of_spanFault h
    exact iff_of_true haddr hcode
  | _ => cases h

/-- Settles O27: the record is that of the instruction's own fault, by `ownFault_of_halted`. -/
theorem instructionsHaltOnlyWithTheirFault : Obligations.InstructionsHaltOnlyWithTheirFault := by
  intro i s t r hs h ht
  obtain ⟨fault, addr, word⟩ := ownFault_of_halted h hs ht
  exact ⟨mayRaise_of_ownFault fault, addr, word, dataAddr_isSome_iff fault⟩

/-! ### Skips -/

/-- R130: an instruction that is a skip on a test of the condition meets its claim. -/
theorem skipsIff_of_exec {i : Instr} {s : State} {b : Bool} {c : Prop} (h : exec i s = .next (skipIf b s))
    (test : b = true ↔ c) : SkipsIff i s c :=
  ⟨_, h, fun hc => if_pos (test.mpr hc), fun hn => if_neg (mt test.mp hn), skipIf_frame s b⟩

/-- Settles O32: each is a skip on the comparison with the operand byte. -/
theorem skipsCompareWithTheImmediate : Obligations.SkipsCompareWithTheImmediate := fun x kk _ =>
  ⟨decodeWord_encode (.skipEqImm x kk), skipsIff_of_exec rfl decide_eq_true_iff,
    decodeWord_encode (.skipNeqImm x kk), skipsIff_of_exec rfl decide_eq_true_iff⟩

/-- R92, D13: groups 0x5 and 0x9 have no instruction where the last nibble is not zero. -/
theorem decodeWord_of_nField_ne_zero {w : Word} (hop : opField w = 0x5#4 ∨ opField w = 0x9#4) (hn : nField w ≠ 0) :
    decodeWord w = .error (.unrecognized w) := by
  obtain hop | hop := hop <;> rw [decodeWord, hop] <;> exact if_neg hn

/-- Settles O33: each is a skip on the comparison of the two registers; the other words of the groups are unrecognized. -/
theorem skipsCompareTwoRegisters : Obligations.SkipsCompareTwoRegisters := by
  intro x y n s
  have unrecognized {op : BitVec 4} (hop : op = 0x5#4 ∨ op = 0x9#4) (hn : n ≠ 0) (i : Instr) :
      decodeWord (wordXYN op x y n) ≠ .ok i := by
    rw [decodeWord_of_nField_ne_zero (by simpa using hop) (by simpa using hn)]
    exact nofun
  exact ⟨decodeWord_encode (.skipEqReg x y), skipsIff_of_exec rfl decide_eq_true_iff,
    decodeWord_encode (.skipNeqReg x y), skipsIff_of_exec rfl decide_eq_true_iff,
    fun hn => ⟨unrecognized (.inl rfl) hn, unrecognized (.inr rfl) hn⟩⟩

/-! ### Return and Jump -/

/-- Settles O29: `popPc` by the stack's two cases. -/
theorem returnPopsOrHalts : Obligations.ReturnPopsOrHalts := by
  refine ⟨decodeWord_encode .ret, fun s => ⟨fun top rest h => ?_, fun h => ?_⟩⟩
  · exact ⟨(s.setStack rest).setPc top, congrArg Host.Outcome.next (popPc_cons h), rfl, rfl, stackThenPc_frame s rest top⟩
  · show Halts (.next (popPc s)) _
    rw [popPc_nil h]
    exact raiseFatal_halts ..

/-- R122, R123: of the addresses that an operand can name, the last byte of memory alone is too high to fetch from. -/
theorem fetchable_addressOf (strict : Bool) (nnn : Addr12) :
    Fetchable strict (addressOf nnn) ↔ 0x200 ≤ nnn.toNat ∧ nnn.toNat ≠ 0xFFF ∧ (strict = true → nnn.toNat % 2 = 0) := by
  have high : nnn.toNat ≤ 0xFFE ↔ nnn.toNat ≠ 0xFFF := by
    have := nnn.isLt
    omega
  rw [Fetchable, addressOf_toNat, high]

/-- Settles O30: Jump sets the pc to its operand, which keeps its value. -/
theorem jumpSetsThePc : Obligations.JumpSetsThePc := fun nnn strict s =>
  ⟨decodeWord_encode (.jump nnn), _, rfl, addressOf_toNat nnn, setPc_frame s _, fetchable_addressOf strict nnn⟩

end Sys2Proof.Machine

/-! PROOFS. The family 42_alu.md: the instructions of the ALU that write one register, and the subtractions. The model computes on 8-bit
bit vectors; each result is brought once to the exact arithmetic that the claim is stated in, beside `byte_add_eq` and `carryFlag_eq`. -/

namespace Sys2Proof.Machine

/-! ### Loads -/

/-- Settles O34: each is one register write. -/
theorem loadImmAndMoveSetTheRegister : Obligations.LoadImmAndMoveSetTheRegister := fun x y kk _ =>
  ⟨decodeWord_encode (.loadImm x kk), setsRegister_of_exec rfl, decodeWord_encode (.move x y), setsRegister_of_exec rfl⟩

/-! ### Subtractions -/

/-- R160: bytes are subtracted modulo 256. -/
theorem byte_sub_eq (a b : Byte) : a - b = BitVec.ofInt 8 (a.toNat - b.toNat : Int) := by
  rw [Int.sub_eq_add_neg, BitVec.ofInt_add, BitVec.ofInt_neg, BitVec.ofInt_natCast, BitVec.ofInt_natCast]
  simp [BitVec.sub_eq_add_neg]

/-- R169, R170: the flag is 0 exactly where the subtrahend exceeds the minuend. -/
theorem noBorrowFlag_eq (a b : Byte) : noBorrowFlag a b = if b.toNat > a.toNat then 0 else 1 := rfl

/-- Settles O38: each is the flagged write of the wrapped difference and its borrow. -/
theorem subtractionsWriteDifferenceAndNoBorrow : Obligations.SubtractionsWriteDifferenceAndNoBorrow := by
  intro x y s
  rw [← byte_sub_eq, ← byte_sub_eq, ← noBorrowFlag_eq, ← noBorrowFlag_eq]
  exact ⟨decodeWord_encode (.subForward x y), setsWithFlag_of_exec rfl,
    decodeWord_encode (.subBackward x y), setsWithFlag_of_exec rfl⟩

/-! ### Shifts -/

/-- R89, R93: a shift's second register field is decoded and discarded. -/
theorem decodeWord_shifts (x y : Reg) : decodeWord (wordXYN 0x8 x y 0x6) = .ok (.shiftRight x) ∧
    decodeWord (wordXYN 0x8 x y 0xE) = .ok (.shiftLeft x) := by
  simp [decodeWord, decodeGroup8]

theorem byte_ushiftRight_one_eq (b : Byte) : b >>> 1 = BitVec.ofNat 8 (b.toNat / 2) := by
  apply BitVec.eq_of_toNat_eq
  rw [BitVec.toNat_ushiftRight, BitVec.toNat_ofNat, Nat.shiftRight_one]
  omega

/-- R160: a byte is doubled modulo 256. -/
theorem byte_shiftLeft_one_eq (b : Byte) : b <<< 1 = BitVec.ofNat 8 (2 * b.toNat % 256) := by
  apply BitVec.eq_of_toNat_eq
  rw [BitVec.toNat_shiftLeft, BitVec.toNat_ofNat, Nat.shiftLeft_eq]
  omega

/-- Settles O39: each decodes without `y`, and is the register write of the halved or doubled byte. -/
theorem shiftsIgnoreTheSecondOperandAndLeaveTheFlag : Obligations.ShiftsIgnoreTheSecondOperandAndLeaveTheFlag := by
  intro x y s
  obtain ⟨right, left⟩ := decodeWord_shifts x y
  rw [← byte_ushiftRight_one_eq, ← byte_shiftLeft_one_eq]
  exact ⟨right, setsRegister_of_exec rfl, left, setsRegister_of_exec rfl⟩

end Sys2Proof.Machine

/-! PROOFS. The family 43_index_memory.md: the two writes of the index register by an operand. AddToIndex's sum and flag are brought to the
exact arithmetic that the claim is stated in. -/

namespace Sys2Proof.Machine

/-- Settles O41: LoadIndex sets the index to its operand, which keeps its value. -/
theorem loadIndexSetsTheIndex : Obligations.LoadIndexSetsTheIndex := fun nnn s =>
  ⟨decodeWord_encode (.loadIndex nnn), _, rfl, addressOf_toNat nnn, setIndex_frame s _⟩

/-- R191: the index sum is taken modulo 65536. -/
theorem indexSum_toNat (i : Word) (b : Byte) : (indexSum i b).toNat = (i.toNat + b.toNat) % 65536 :=
  BitVec.toNat_ofNat ..

theorem indexFlag_eq (i : Word) (b : Byte) : indexFlag i b = if i.toNat + b.toNat > 0xFFFF then 1 else 0 := by
  simp [indexFlag, flagByte]

/-- Settles O42: the index is written first, with the sum; the write of VF that follows has the flag of the operands read before both. -/
theorem addToIndexWrapsAndFlagsOverflow : Obligations.AddToIndexWrapsAndFlagsOverflow := by
  intro x s
  refine ⟨decodeWord_encode (.addToIndex x), _, rfl, indexSum_toNat s.index (s.getV x), ?_, ?_,
    completion_frame (.addToIndex x) s⟩
  · rw [← indexFlag_eq]
    exact getV_setV_self _ VF _
  · exact setV_onlyRegs (s.setIndex _) VF _

end Sys2Proof.Machine

/-! PROOFS. The family 44_display.md. Whether a cycle asserts redraw is a fact about the completion of an instruction (`exec_redraw_iff`). The
rows of Draw's sprite cover the cells of `spriteCovers` (`rowsCover_sprite`), so the compositor's two laws say what Draw does to each cell
and when it collides. -/

namespace Sys2Proof.Machine

/-! ### The redraw output -/

/-- R129: the redraw output may be written by the instructions that assert it, and by no other. -/
theorem assertsRedraw_of_redraw_mem_mayWrite {i : Instr} (h : .redraw ∈ mayWrite i) : assertsRedraw i := by
  cases i with
  | clearScreen => exact .inl rfl
  | draw x y n => exact .inr ⟨x, y, n, rfl⟩
  | _ => simp [mayWrite] at h

theorem completion_redraw_iff (i : Instr) {s : State} (hr : s.redraw = false) :
    (completion i s).redraw = true ↔ assertsRedraw i := by
  constructor
  · intro h
    by_contra hi
    have kept : (completion i s).redraw = s.redraw :=
      (completion_frame i s).1 .redraw (mt assertsRedraw_of_redraw_mem_mayWrite hi)
    exact Bool.false_ne_true ((kept.trans hr).symm.trans h)
  · rintro (rfl | ⟨x, y, n, rfl⟩)
    · rfl
    · rfl

/-- R129: an instruction that starts running with no redraw output asserts it iff it is Draw or ClearScreen and completes. -/
theorem exec_redraw_iff {i : Instr} {s t : State} (h : exec i s = .next t) (hs : Running s) (hr : s.redraw = false) :
    t.redraw = true ↔ Running t ∧ assertsRedraw i := by
  obtain ⟨_, rfl⟩ | ⟨code, dataAddr, _, rfl⟩ := exec_cases h
  · have running : Running (completion i s) := ((completion_frame i s).1 .halted (halted_notMem_mayWrite i)).trans hs
    rw [completion_redraw_iff i hr, and_iff_right running]
  · exact iff_of_false nofun fun ⟨ht, _⟩ => nomatch ht

/-- Settles O13, by the four outcomes of a cycle: only the last runs an instruction, and the others output no redraw. -/
theorem redrawIffDrawOrClearScreen : Obligations.RedrawIffDrawOrClearScreen := by
  intro s now key he
  rw [step_cycle he]
  obtain ⟨halted, e⟩ | ⟨_, code, _, e⟩ | ⟨_, _, _, e⟩ | ⟨hs, hf, i, hd, e⟩ := cycleWith_cases Config.pcAlignStrict
    Config.timeUnitsPerSecond exec now key (takeEvent s)
  · exact ⟨_, e, iff_of_false nofun fun ⟨hs, _⟩ => halted hs⟩
  · exact ⟨_, e, iff_of_false nofun fun ⟨_, ht, _⟩ => nomatch ht⟩
  · exact ⟨_, e, iff_of_false nofun fun ⟨_, ht, _⟩ => nomatch ht⟩
  · obtain ⟨t, ran⟩ := everyInstructionAnswersNext i (beginCycle Config.timeUnitsPerSecond now key (takeEvent s))
    refine ⟨t, e.trans ran, (exec_redraw_iff ran hs rfl).trans ⟨fun ⟨ht, asserts⟩ => ?_, fun ⟨_, ht, _, j, hj, asserts⟩ => ?_⟩⟩
    · exact ⟨hs, ht, fetchFault_eq_none.mp hf, i, hd, asserts⟩
    · cases hj.symm.trans hd
      exact ⟨ht, asserts⟩

/-! ### Draw's sprite -/

section
variable (s : State) (x y : Reg) (n : Nibble)

/-- R212, R213: the rows that Draw reads cover the cells under the sprite's set pixels. -/
theorem rowsCover_sprite (c r : Nat) :
    rowsCover (anchorColumn (s.getV x)) (anchorRow (s.getV y)) (s.mem.readBytes s.index.toNat n.toNat) c r ↔
      spriteCovers s x y n c r := by
  rw [rowsCover, spriteCovers, Memory.readBytes_length, anchorColumn, anchorRow]
  refine and_congr_right fun _ => and_congr_right fun _ => and_congr_right fun _ => and_congr_right fun below => ?_
  rw [Memory.readBytes_getD _ _ _ _ (by omega), spriteBit]

/-- R212: a cell is lit after Draw iff it was lit or is covered, and not both. -/
theorem composeSprite_cell {c r : Nat} (hc : c < 64) (hr : r < 32) :
    (composeSprite s x y n).1[c][r] = true ↔ ¬ (s.disp[c][r] = true ↔ spriteCovers s x y n c r) := by
  rw [← rowsCover_sprite]
  exact compositeRows_cell _ _ _ (s.disp, false) c r hc hr

theorem composeSprite_covered {c r : Nat} (hc : c < 64) (hr : r < 32) (h : spriteCovers s x y n c r) :
    (composeSprite s x y n).1[c][r] = !s.disp[c][r] := by
  rw [Bool.eq_iff_iff, composeSprite_cell s x y n hc hr]
  simp [h]

theorem composeSprite_uncovered {c r : Nat} (hc : c < 64) (hr : r < 32) (h : ¬ spriteCovers s x y n c r) :
    (composeSprite s x y n).1[c][r] = s.disp[c][r] := by
  rw [Bool.eq_iff_iff, composeSprite_cell s x y n hc hr]
  simp [h]

/-- R212, D19: Draw collides iff a lit cell of the grid is covered. -/
theorem composeSprite_collided :
    (composeSprite s x y n).2 = true ↔
      ∃ c r, ∃ (hc : c < 64) (hr : r < 32), spriteCovers s x y n c r ∧ s.disp[c][r] = true := by
  simp only [← rowsCover_sprite]
  exact (compositeRows_collided _ _ _ (s.disp, false)).trans (or_iff_right nofun)

end

/-- R212: Draw completes where it reads no row or its last row is in bounds. -/
theorem exec_draw_inBounds {x y : Reg} {n : Nibble} {s : State} (h : n.toNat = 0 ∨ s.index.toNat + n.toNat ≤ 4096) :
    exec (.draw x y n) s = .next (completion (.draw x y n) s) :=
  congrArg _ (withSpan_inBounds (fun k hk => show s.index.toNat + k < 4096 by omega) s _)

/-- R212, D19: VF after Draw, by whether it has collided. -/
theorem completion_draw_getV_VF {x y : Reg} {n : Nibble} {s : State} {hit : Bool} (h : (composeSprite s x y n).2 = hit) :
    (completion (.draw x y n) s).getV VF = if Config.drawCollisionVf then flagByte hit else s.getV VF := by
  subst h
  exact (writeCollision_getV (s.present _) _ _ VF).trans (if_congr (and_iff_left rfl) rfl rfl)

/-- Settles O50: the cells by `composeSprite_cell`, the flag by `composeSprite_collided`, and the frame is the completion's. -/
theorem drawTogglesTheCellsUnderTheSprite : Obligations.DrawTogglesTheCellsUnderTheSprite := by
  intro x y n s
  refine ⟨decodeWord_encode (.draw x y n), fun h => ?_, fun hn h => withSpan_halts hn h s _⟩
  refine ⟨_, exec_draw_inBounds h, fun c r hc hr => ⟨composeSprite_covered s x y n hc hr, composeSprite_uncovered s x y n hc hr⟩,
    rfl, fun hit => ?_, fun miss => ?_, fun r hr => completion_getV ?_ s, completion_frame (.draw x y n) s⟩
  · exact completion_draw_getV_VF ((composeSprite_collided s x y n).mpr hit)
  · exact completion_draw_getV_VF (Bool.eq_false_iff.mpr (mt (composeSprite_collided s x y n).mp miss))
  · simp [mayWriteReg, List.ne_of_not_mem_cons hr]

end Sys2Proof.Machine

/-! PROOFS. The family 45_keys_timers.md. The two key skips are one test (`keyIs_iff`) and its negation; WaitKey is a rewind or a register
write by the sampled key; each timer access is one write. -/

namespace Sys2Proof.Machine

/-! ### Keys -/

/-- D21: a key keeps its value 0x0 to 0xF as a byte. -/
@[simp] theorem keyByte_toNat (k : Key) : (keyByte k).toNat = k.toNat :=
  BitVec.toNat_setWidth_of_le (by decide)

/-- R231, R232: the test of the key skips, which no byte meets without a key. -/
theorem keyIs_iff (key : Option Key) (b : Byte) : keyIs key b = true ↔ ∃ k : Key, key = some k ∧ b.toNat = k.toNat := by
  cases key with
  | none => simp [keyIs]
  | some k =>
    rw [keyIs, decide_eq_true_iff, ← BitVec.toNat_inj, keyByte_toNat]
    simp only [Option.some.injEq, exists_eq_left']

/-- Settles O52: each is a skip on `keyIs` or on its negation. -/
theorem keySkipsCompareWithTheSample : Obligations.KeySkipsCompareWithTheSample := by
  intro x s
  have pressed := keyIs_iff s.key (s.getV x)
  have notPressed : (!keyIs s.key (s.getV x)) = true ↔ ¬ ∃ k : Key, s.key = some k ∧ (s.getV x).toNat = k.toNat := by
    rw [Bool.not_eq_true', Bool.eq_false_iff, Ne, pressed]
  exact ⟨decodeWord_encode (.skipKeyPressed x), skipsIff_of_exec rfl pressed,
    decodeWord_encode (.skipKeyNotPressed x), skipsIff_of_exec rfl notPressed⟩

theorem awaitKey_none {s : State} (h : s.key = none) (x : Reg) : awaitKey x s = rewindPc s := by
  rw [awaitKey, h]

theorem awaitKey_some {s : State} {k : Key} (h : s.key = some k) (x : Reg) : awaitKey x s = s.setV x (keyByte k) := by
  rw [awaitKey, h]

/-- Settles O53, by whether the sample has a key. -/
theorem waitKeySpinsOrStores : Obligations.WaitKeySpinsOrStores := by
  intro x s
  refine ⟨decodeWord_encode (.waitKey x), fun h => ?_, fun k h => ?_⟩
  · exact ⟨rewindPc s, congrArg Host.Outcome.next (awaitKey_none h x), rfl, rewindPc_frame s⟩
  · refine ⟨s.setV x (keyByte k), congrArg Host.Outcome.next (awaitKey_some h x), ?_, setV_onlyRegs s x _, setV_frame s x _⟩
    rw [getV_setV_self, keyByte_toNat]

/-! ### Timer access -/

/-- Settles O54: each is one write, of a register or of a timer. -/
theorem timerAccessMovesOneByte : Obligations.TimerAccessMovesOneByte := fun x s =>
  ⟨decodeWord_encode (.loadDelay x), setsRegister_of_exec rfl,
    decodeWord_encode (.storeDelay x), ⟨s.setDt (s.getV x), rfl, rfl, setDt_frame s _⟩,
    decodeWord_encode (.storeSound x), ⟨s.setSt (s.getV x), rfl, rfl, setSt_frame s _⟩⟩

end Sys2Proof.Machine

/-! PROOFS. The written forms of 30_encoding.md. A term that fits a form has the operands of that form (`slotsFit_one` to `slotsFit_three`),
so the match that assembles it reduces to an instruction. -/

namespace Sys2Proof

/-! ### The operands of a form -/

/-- R81, R84: the operand with a value that may stand in a position. -/
def Slot.operand : Slot → Nat → Operand
  | .reg => .reg
  | .byte | .nibble | .addr => .imm

theorem Slot.eq_operand_of_fits {f : Slot} {o : Operand} (h : f.fits o = true) : ∃ v, o = f.operand v := by
  cases o with
  | reg r =>
    cases f with
    | reg => exact ⟨r, rfl⟩
    | byte | nibble | addr => cases h
  | imm v =>
    cases f with
    | reg => cases h
    | byte | nibble | addr => exact ⟨v, rfl⟩

theorem slotsFit_nil {os : List Operand} (h : slotsFit [] os = true) : os = [] := by
  cases os with
  | nil => rfl
  | cons => cases h

theorem slotsFit_cons {f : Slot} {fs : List Slot} {os : List Operand} (h : slotsFit (f :: fs) os = true) :
    ∃ v os', os = f.operand v :: os' ∧ slotsFit fs os' = true := by
  cases os with
  | nil => cases h
  | cons o os =>
    obtain ⟨fits, rest⟩ := Bool.and_eq_true_iff.mp h
    obtain ⟨v, rfl⟩ := Slot.eq_operand_of_fits fits
    exact ⟨v, os, rfl, rest⟩

section
variable {f g k : Slot} {os : List Operand}

theorem slotsFit_one (h : slotsFit [f] os = true) : ∃ u, os = [f.operand u] := by
  obtain ⟨u, _, rfl, rest⟩ := slotsFit_cons h
  obtain rfl := slotsFit_nil rest
  exact ⟨u, rfl⟩

theorem slotsFit_two (h : slotsFit [f, g] os = true) : ∃ u v, os = [f.operand u, g.operand v] := by
  obtain ⟨u, _, rfl, rest⟩ := slotsFit_cons h
  obtain ⟨v, rfl⟩ := slotsFit_one rest
  exact ⟨u, v, rfl⟩

theorem slotsFit_three (h : slotsFit [f, g, k] os = true) : ∃ u v w, os = [f.operand u, g.operand v, k.operand w] := by
  obtain ⟨u, _, rfl, rest⟩ := slotsFit_cons h
  obtain ⟨v, w, rfl⟩ := slotsFit_two rest
  exact ⟨u, v, w, rfl⟩

end

/-! ### Assembling -/

/-- R95: a well-formed term assembles, by the number of operands in the form that it fits. -/
theorem exists_assemble_of_wellFormed {t : AsmTerm} (h : t.wellFormed = true) : ∃ i, t.assemble = some i := by
  rw [AsmTerm.assemble, if_pos h]
  obtain ⟨tag, os⟩ := t
  obtain ⟨form, mem, fit⟩ := List.any_eq_true.mp h
  cases tag with
  | clearScreen | ret => exact ⟨_, rfl⟩
  | jump | call | loadIndex | skipKeyPressed | skipKeyNotPressed | loadDelay | waitKey | storeDelay | storeSound
  | addToIndex | fontChar | storeBCD | storeRange | loadRange =>
    obtain rfl := List.mem_singleton.mp mem
    obtain ⟨u, rfl⟩ := slotsFit_one fit
    exact ⟨_, rfl⟩
  | skipEqImm | skipNeqImm | loadImm | addImm | random
  | skipEqReg | skipNeqReg | move | or | and | xor | add | subForward | subBackward =>
    obtain rfl := List.mem_singleton.mp mem
    obtain ⟨u, v, rfl⟩ := slotsFit_two fit
    exact ⟨_, rfl⟩
  | shiftRight | shiftLeft =>
    obtain rfl | rfl := List.mem_pair.mp mem
    · obtain ⟨u, rfl⟩ := slotsFit_one fit
      exact ⟨_, rfl⟩
    · obtain ⟨u, v, rfl⟩ := slotsFit_two fit
      exact ⟨_, rfl⟩
  | draw =>
    obtain rfl := List.mem_singleton.mp mem
    obtain ⟨u, v, w, rfl⟩ := slotsFit_three fit
    exact ⟨_, rfl⟩

/-- R95: the operands of a written instruction are its fields' values, which the fields take back unchanged. -/
theorem assemble_toTerm (i : Instr) : i.toTerm.assemble = some i := by
  have wf : i.toTerm.wellFormed = true := wellFormed_instr i
  rw [AsmTerm.assemble, if_pos wf]
  cases i with
  | clearScreen | ret => rfl
  | jump | call | loadIndex => simp [Instr.toTerm, Tag.ofAddr]
  | skipEqImm | skipNeqImm | loadImm | addImm | random => simp [Instr.toTerm, Tag.ofRegByte]
  | skipEqReg | skipNeqReg | move | or | and | xor | add | subForward | subBackward => simp [Instr.toTerm, Tag.ofTwoRegs]
  | draw => simp [Instr.toTerm]
  | _ => simp [Instr.toTerm, Tag.ofOneReg]

/-- R95: a shift written with a second register is well formed. -/
theorem wellFormed_longShifts (x y : Reg) : AsmTerm.wellFormed ⟨.shiftRight, [.reg x, .reg y]⟩ = true ∧
    AsmTerm.wellFormed ⟨.shiftLeft, [.reg x, .reg y]⟩ = true := by
  simp [AsmTerm.wellFormed, Tag.forms, slotsFit, Slot.fits]

/-- Settles O7: a well-formed term assembles to some instruction and an ill-formed one by definition to none; the long form of a shift
drops its second register. -/
theorem writtenFormsAssemble : Obligations.WrittenFormsAssemble := by
  refine ⟨assemble_toTerm, fun t => ⟨fun h => ?_, fun h => if_neg (Bool.eq_false_iff.mp h)⟩, fun x y => ?_⟩
  · by_contra wf
    obtain ⟨i, hi⟩ := exists_assemble_of_wellFormed (Bool.eq_true_of_not_eq_false wf)
    cases h.symm.trans hi
  · obtain ⟨right, left⟩ := wellFormed_longShifts x y
    rw [AsmTerm.assemble, if_pos right, AsmTerm.assemble, if_pos left]
    simp [Tag.ofTwoRegs]

end Sys2Proof

/-! PROOFS. The halts of a cycle: which fault is reported and what its record holds, by the outcomes of a cycle that the family 40_cycle.md
gives, and the idle cycles after it. -/

namespace Sys2Proof.Machine

/-! ### The record of a cycle's halt -/

/-- A halt has one record. -/
theorem Halts.record_eq {o : Host.Outcome State Fault Refusal} {r r' : FaultRecord} {t : State} (halts : Halts o r)
    (h : o = .next t) (ht : t.halted = some r') : r' = r := by
  obtain ⟨u, hu, halted, _⟩ := halts
  cases hu.symm.trans h
  exact Option.some.inj (ht.symm.trans halted)

/-- R123: an address in range is not fetchable only where it is odd and the alignment strict. -/
theorem odd_of_not_fetchable {alignStrict : Bool} {a : Word} (low : 0x200 ≤ a.toNat) (high : a.toNat ≤ 0xFFE)
    (hf : ¬ Fetchable alignStrict a) : a.toNat % 2 = 1 ∧ alignStrict = true := by
  obtain ⟨_, out⟩ | ⟨_, _, _, odd, strict⟩ | ⟨_, fetchable⟩ := fetchFault_cases alignStrict a
  · omega
  · exact ⟨odd, strict⟩
  · exact absurd fetchable hf

/-- Settles O14: each clause gives the stage of the cycle that halts, and the record is that stage's. -/
theorem firstFaultInCycleOrderIsReported : Obligations.FirstFaultInCycleOrderIsReported := by
  intro strict units now key s t r hs h ht
  obtain ⟨outOfBounds, misaligned, _⟩ := fetchChecksDecideTheFetchFaults.1 strict units now key s hs
  refine ⟨fun out => ?_, fun low high hf => ?_, fun hf hd => ?_, fun hf i hd => ?_⟩
  · rw [(outOfBounds out).record_eq h ht]
  · obtain ⟨odd, hstrict⟩ := odd_of_not_fetchable low high hf
    rw [(misaligned low high odd hstrict).record_eq h ht]
  · have unrecognized := (unrecognizedExactlyOutsideTheTable (s.mem.fetch s.pc)).1.resolve_left fun ⟨i, hi⟩ => hd i hi
    rw [(unrecognizedWordHalts strict units now key s hs hf unrecognized).record_eq h ht]
  · exact mayRaise_of_halted ((cycleWith_of_decode hs units now key hf hd).symm.trans h) hs ht

theorem fetchFault_code {alignStrict : Bool} {a : Word} {code : Fault} (h : fetchFault alignStrict a = some code) :
    code = .pcOutOfBounds ∨ code = .pcMisaligned := by
  obtain ⟨e, _⟩ | ⟨e, _⟩ | ⟨e, _⟩ := fetchFault_cases alignStrict a
  · exact .inl (Option.some.inj (h.symm.trans e))
  · exact .inr (Option.some.inj (h.symm.trans e))
  · cases h.symm.trans e

/-- R69: a bounds fault names an address past memory. -/
theorem dataAddr_of_spanFault {s : State} {n a : Nat} {code : Fault} (h : spanFault s n = some (code, some a)) : 4096 ≤ a := by
  obtain ⟨bad, hbad, e⟩ := Option.map_eq_some_iff.mp h
  cases e
  exact (firstOutOfBounds_eq_some hbad).1

/-- R252: the data address of an instruction's own fault, by whether it is the bounds fault. -/
theorem dataAddr_of_ownFault {i : Instr} {s : State} {code : Fault} {dataAddr : Option Nat}
    (h : ownFault i s = some (code, dataAddr)) :
    (code = .memoryOutOfBounds → ∃ a, dataAddr = some a ∧ 4096 ≤ a) ∧ (code ≠ .memoryOutOfBounds → dataAddr = none) := by
  have isSome := dataAddr_isSome_iff h
  refine ⟨fun hc => ?_, fun hc => Option.not_isSome_iff_eq_none.mp (mt isSome.mp hc)⟩
  obtain ⟨a, rfl⟩ := Option.isSome_iff_exists.mp (isSome.mpr hc)
  refine ⟨a, rfl, ?_⟩
  cases i with
  | ret => cases (Option.ite_none_right_eq_some.mp h).2
  | storeBCD | storeRange | loadRange | draw => exact dataAddr_of_spanFault h
  | _ => cases h

/-- Settles O15, by the three outcomes of a running CORE's cycle. -/
theorem faultRecordNamesAddressAndWord : Obligations.FaultRecordNamesAddressAndWord := by
  intro strict units now key s t r hs h ht
  obtain ⟨halted, _⟩ | ⟨_, code, hf, e⟩ | ⟨_, _, _, e⟩ | ⟨_, _, i, _, e⟩ := cycleWith_cases strict units exec now key s
  · exact absurd hs halted
  · cases e.symm.trans h
    cases ht
    obtain rfl | rfl := fetchFault_code hf
    · exact ⟨rfl, rfl, fun _ => rfl, fun hc => absurd rfl hc, nofun, fun _ => rfl⟩
    · exact ⟨rfl, rfl, fun _ => rfl, fun _ hc => absurd rfl hc, nofun, fun _ => rfl⟩
  · cases e.symm.trans h
    cases ht
    exact ⟨rfl, rfl, nofun, fun _ _ => rfl, nofun, fun _ => rfl⟩
  · have ran := e.symm.trans h
    obtain ⟨own, addr, word⟩ := ownFault_of_halted ran hs ht
    obtain ⟨notBounds, notAlignment⟩ := mayRaise_ne_fetchFault i
    have noRedraw : t.redraw = false :=
      Bool.eq_false_iff.mpr fun hr => nomatch ht.symm.trans ((exec_redraw_iff ran hs rfl).mp hr).1
    have notFetch : ¬ (r.code = .pcOutOfBounds ∨ r.code = .pcMisaligned) := by
      rintro (hc | hc)
      · exact notBounds (hc ▸ mayRaise_of_ownFault own)
      · exact notAlignment (hc ▸ mayRaise_of_ownFault own)
    exact ⟨addr, noRedraw, fun hc => absurd hc notFetch, fun _ _ => word, dataAddr_of_ownFault own⟩

/-! ### The halt is sticky -/

/-- Where no reset is the oldest event, a cycle comes next. -/
theorem nextEvent_eq_cycle {s : State} (h : ∀ e ∈ s.events.head?, e.isReset = false) :
    ∃ now key, nextEvent s = .cycle now key := by
  unfold nextEvent
  cases hev : s.events with
  | nil => exact ⟨_, _, rfl⟩
  | cons e es =>
    cases e with
    | cycle now key => exact ⟨now, key, rfl⟩
    | reset seed t0 image =>
      rw [hev] at h
      cases h _ rfl

/-- R121: a cycle of a halted CORE is idle. -/
theorem step_of_halted {s : State} {r : FaultRecord} {now : Nat} {key : Option Key} (he : nextEvent s = .cycle now key)
    (hs : s.halted = some r) : step s = .next (idleCycle (takeEvent s)) := by
  simp [step_cycle he, cycleWith, hs]

theorem idleCycle_takeEvent_same (s : State) {e : Element} (he : e ≠ .redraw) : e.same s (idleCycle (takeEvent s)) := by
  cases e with
  | redraw => exact absurd rfl he
  | v | mem => exact fun _ => rfl
  | _ => rfl

/-- Settles O12: induction on the number of steps, each one idle; a reset gives the reset value's `halted`. -/
theorem haltIsStickyUntilReset : Obligations.HaltIsStickyUntilReset := by
  refine ⟨fun k => ?_, fun s seed t0 image he => ⟨_, step_reset he, rfl⟩⟩
  induction k with
  | zero =>
    intro s r hs _
    exact ⟨s, rfl, hs, fun e _ => (OnlyChanges.refl [] s).1 e List.not_mem_nil, fun h => absurd rfl h⟩
  | succ k ih =>
    intro s r hs hev
    obtain ⟨now, key, he⟩ := nextEvent_eq_cycle fun e h => hev e (List.mem_of_mem_head? h)
    obtain ⟨t, run, halted, same, redraw⟩ :=
      ih (idleCycle (takeEvent s)) r hs fun e h => hev e (List.mem_of_mem_tail h)
    refine ⟨t, (run_succ (step_of_halted he hs)).trans run, halted,
      fun e h => Element.same_trans (idleCycle_takeEvent_same s h) (same e h), fun _ => ?_⟩
    cases k with
    | zero => cases run; rfl
    | succ k => exact redraw k.succ_ne_zero

end Sys2Proof.Machine

/-! PROOFS. Reset, and what is read back: the image that a reset loads, the registers that a store has saved, the display under a
sprite drawn twice, and the word that `withFetchWord` places. -/

namespace Sys2Proof.Machine

/-! ### Reset -/

/-- R281: memory after the load, byte by byte; the image's bytes past its first 3584, which are dropped, have no address below 4096. -/
theorem read_loadImage {m : Memory} (hm : m.wf = true) (image : List Byte) {a : Nat} (ha : a < 4096) :
    (loadImage m image).read a =
      if 0x200 ≤ a ∧ a - 0x200 < image.length then image.getD (a - 0x200) 0 else m.read a := by
  have room : Config.programBase + (image.take Config.programSize).length ≤ Config.memSize := by
    simp only [List.length_take, Config.programBase, Config.programSize, Config.memSize]; omega
  rw [loadImage, Memory.read_writeBytes hm _ _ room]
  simp only [List.length_take, Config.programBase, Config.programSize]
  refine ite_congr (propext (by omega)) (fun h => ?_) fun _ => rfl
  simp [List.getD_eq_getElem?_getD, show a - 512 < 3584 by omega]

/-- Settles O20: memory by `read_loadImage`, every other element by reading the reset value. -/
theorem resetLeavesTheResetValues : Obligations.ResetLeavesTheResetValues := by
  intro s seed t0 image he
  refine ⟨_, step_reset he, fun r => by simp [applyReset, State.reset, State.getV], rfl, rfl, rfl, rfl, rfl,
    fun c r => blank_cell, fun a ha => ?_, rfl, rfl, rfl, rfl⟩
  show (loadImage [] image).read a = _
  rw [read_loadImage rfl image ha, Memory.read_nil]
  by_cases font : a < 80
  · rw [if_neg (by omega), if_pos font, Memory.initial_font font]
  · rw [if_neg font, Memory.initial_zero (Nat.le_of_not_lt font)]

/-- Settles O21: memory is the reset contents, 0x0000 at 0x200, which no row of the table covers. -/
theorem emptyImageHaltsInTheFirstCycle : Obligations.EmptyImageHaltsInTheFirstCycle := by
  intro s seed t0 he
  refine ⟨_, step_reset he, rfl, fun now key hc => ?_⟩
  have fetched : Memory.fetch [] 0x200 = 0x0000 := by
    rw [Memory.fetch, Memory.read_nil, Memory.read_nil, Memory.initial_zero (by decide), Memory.initial_zero (by decide)]
    rfl
  have fetchable : Fetchable Config.pcAlignStrict 0x200 := ⟨by decide, by decide, fun _ => by decide⟩
  have unrecognized : decodeWord (Memory.fetch [] 0x200) = .error (.unrecognized (Memory.fetch [] 0x200)) := by
    rw [fetched]; decide
  rw [step_cycle hc, ← fetched]
  exact unrecognizedWordHalts _ _ now key (takeEvent (applyReset seed t0 [] (takeEvent s))) rfl fetchable unrecognized

/-! ### Round trips -/

/-- Settles O47: LoadRange reads the bytes that StoreRange wrote, at an index that neither has changed. -/
theorem storeRangeThenLoadRangeRestores : Obligations.StoreRangeThenLoadRangeRestores := by
  intro x s hm h
  obtain ⟨t, stored, bytes, _, frame, _⟩ := (storeRangeWritesTheRegisters x s hm).2.1 h
  have index : t.index = s.index := frame .index (by decide)
  refine ⟨t, stored, fun v => ?_⟩
  obtain ⟨u, loaded, regs, _⟩ := (loadRangeReadsTheRegisters x (t.setRegs v)).2.1 (index ▸ h)
  refine ⟨u, loaded, fun r hr => ?_⟩
  calc u.getV r = t.mem.read (t.index.toNat + r.val) := regs r hr
    _ = s.getV r := by rw [index, bytes r hr]

/-- R210, R213: the cells under a sprite depend on its anchor, the index and memory alone. -/
theorem spriteCovers_congr {s s' : State} {x y : Reg} (hx : s'.getV x = s.getV x) (hy : s'.getV y = s.getV y)
    (hi : s'.index = s.index) (hm : ∀ a, s'.mem.read a = s.mem.read a) (n : Nibble) (c r : Nat) :
    spriteCovers s' x y n c r ↔ spriteCovers s x y n c r := by
  simp only [spriteCovers, hx, hy, hi, hm]

/-- Settles O51: the second Draw covers the same cells, and toggles back those the first has toggled. -/
theorem drawTwiceRestoresTheDisplay : Obligations.DrawTwiceRestoresTheDisplay := by
  intro x y n s h
  obtain ⟨t, drawn, cells, _⟩ := (drawTogglesTheCellsUnderTheSprite x y n s).2.1 h
  refine ⟨t, drawn, fun s' hdisp hx hy hi hm => ?_⟩
  obtain ⟨u, redrawn, cells', _⟩ := (drawTogglesTheCellsUnderTheSprite x y n s').2.1 (hi ▸ h)
  refine ⟨u, redrawn, Vector.ext fun c hc => Vector.ext fun r hr => ?_⟩
  obtain ⟨on, off⟩ := cells c r hc hr
  obtain ⟨on', off'⟩ := cells' c r hc hr
  rw [spriteCovers_congr hx hy hi hm, hdisp] at on' off'
  by_cases covered : spriteCovers s x y n c r
  · rw [on' covered, on covered, Bool.not_not]
  · rw [off' covered, off covered]

/-! ### The placed word -/

theorem decodeWord_of_decodeTableWord {nbits w : Nat} {i : Instr} (h : decodeTableWord nbits w = some i) :
    decodeWord (tableWord nbits w) = .ok i := by
  rw [decodeTableWord, ← List.append_nil (bytesOfWord _), decodeBytes_bytesOfWord] at h
  cases hd : decodeWord (tableWord nbits w) with
  | error e => rw [hd] at h; cases h
  | ok j => rw [hd] at h; cases h; rfl

/-- Log entry 15: the word placed is the one that the next cycle fetches. -/
theorem fetch_placeWord {s : State} (hm : MemoryCanonical s) (w : Word) : (placeWord w s).mem.fetch (placeWord w s).pc = w := by
  have room : (fetchSlot s).toNat + (bytesOfWord w).length ≤ Config.memSize :=
    Nat.add_le_add_right (fetchSlot_fetchable s).2.1 2
  have fetched := Memory.fetch_writeBytes_inside hm room (k := 0) Nat.one_lt_two
  rw [BitVec.ofNat_eq_ofNat, BitVec.add_zero] at fetched
  exact fetched.trans (wordOfBytes_bytesOfWord w)

/-- Log entry 15: no reset is left at the head of the events. -/
theorem nextEvent_placeWord (w : Word) (s : State) : ∃ now key, nextEvent (placeWord w s) = .cycle now key := by
  refine nextEvent_eq_cycle fun e he => ?_
  have kept := List.head?_dropWhile_not HostEvent.isReset s.events
  rwa [show (s.events.dropWhile HostEvent.isReset).head? = some e from he] at kept

/-- Settles O55: the placed state runs, a cycle comes next, and it fetches the placed word. -/
theorem placedWordRunsNext : Obligations.PlacedWordRunsNext := by
  intro s w i hm h
  obtain ⟨now, key, he⟩ := nextEvent_placeWord (tableWord 16 w) s
  refine ⟨now, key, step_of_decode he rfl (fetchSlot_fetchable s) ?_⟩
  rw [State.withFetchWord, fetch_placeWord hm, decodeWord_of_decodeTableWord h]

/-! ### The byte order of a fetch and the fault codes -/

/-- Settles O9: the concatenation that the model fetches, written as a shift. -/
theorem fetchIsBigEndian : Obligations.FetchIsBigEndian := by
  intro m a
  rw [← setWidth_append_eq_or, BitVec.setWidth_eq, Memory.fetch]

/-- Settles O16 by reading the numbers. -/
theorem faultCodesAreNumbered : Obligations.FaultCodesAreNumbered := ⟨rfl, rfl, rfl, rfl, rfl, rfl⟩

end Sys2Proof.Machine
